-- ==== Sys2Proof/Word.lean ====
section
/-! DEFINITION. The hardware's units of data: the byte of the two streams, the device address, and the Message of the
session queues (20_memory.md R30), with the records a Message carries (10_state.md R13, R14; 41_messages.md R97 to R103). -/

namespace Sys2Proof

/-- A byte, the unit of RX, TX and of a frame (00_scope.md R5, R6). -/
abbrev Byte := BitVec 8

/-- A device address, ADDR[6:0]: the index of the session table (10_state.md R15). -/
abbrev Addr := BitVec 7

/-- A capability record of PDCAP: three 8-bit fields in this order (10_state.md R14); `functionCode` is carried as given,
reserved values 0 and 15..255 included (41_messages.md R104). -/
structure Capability where
  functionCode : Byte
  complianceLevel : Byte
  numberOf : Byte
  deriving DecidableEq, Repr

/-- The 14 fields of LED, in payload offset order (41_messages.md R97). `tempTimerLsb` and `tempTimerMsb` stay two fields. -/
structure LedFields where
  reader : Byte
  led : Byte
  tempControl : Byte
  tempOnTime : Byte
  tempOffTime : Byte
  tempOnColor : Byte
  tempOffColor : Byte
  tempTimerLsb : Byte
  tempTimerMsb : Byte
  permControl : Byte
  permOnTime : Byte
  permOffTime : Byte
  permOnColor : Byte
  permOffColor : Byte
  deriving DecidableEq, Repr

/-- The fields of PDID (41_messages.md R100); `firmware` is a byte sequence of any length, not checked to be ASCII. -/
structure PdidFields where
  vendor : BitVec 24
  model : Byte
  version : Byte
  serial : BitVec 32
  firmware : List Byte
  deriving DecidableEq, Repr

/-- The fields of RAW (41_messages.md R102); `bitCount` and the length of `bits` are independent. -/
structure RawFields where
  reader : Byte
  formatCode : Byte
  bitCount : BitVec 16
  bits : List Byte
  deriving DecidableEq, Repr

/-- The fields of LSTATR (41_messages.md R103). -/
structure LstatrFields where
  tamperStatus : Byte
  powerStatus : Byte
  deriving DecidableEq, Repr

/-- A Message: one of exactly 11 variants with its type-specific fields (10_state.md R13). Equality is equality of variant
and fields (41_messages.md R106). -/
inductive Message where
  | poll
  | id
  | cap
  | lstat
  | led (p : LedFields)
  | buz
  | ack
  | pdid (p : PdidFields)
  | pdcap (caps : List Capability)
  | raw (p : RawFields)
  | lstatr (p : LstatrFields)
  deriving DecidableEq, Repr

end Sys2Proof
end

