-- ==== Sys2Proof/Machine/Params.lean ====
section
/-! DEFINITION. The named parameters of 00_scope.md R4, with the source's literals (93_implementation_defined.md U7: "named
constants with the source's values"; log 19). They stand here, and not in Config, so that an audit of the literals can mend them. -/

namespace Sys2Proof.Machine.Param

/-- Start-of-message marker. -/
def som : Byte := 0x53
/-- Bytes of a frame that are not DATA. -/
def overhead : Nat := 7
/-- Smallest LEN for which `read_from_stream` reads the body (90_conflicts.md C1). -/
def minStreamLen : Nat := 6
/-- Bytes read after SOM to obtain ADDR and LEN. -/
def hdrRest : Nat := 3
/-- Largest DATA length `encode` is defined for. -/
def maxData : Nat := 0xFFF8
/-- CTRL mask of the CRC-mode request bit. -/
def ctrlCrc : Byte := 0x02
/-- CTRL mask of the secure-channel request bit. -/
def ctrlSc : Byte := 0x04
/-- CTRL bits that make a frame invalid. -/
def ctrlReject : Byte := ctrlCrc ||| ctrlSc
/-- Mask of the reply-direction flag in ADDR. -/
def dirBit : Byte := 0x80
/-- Bits of ADDR that index the session table. -/
def addrMask : Byte := 0x7F
/-- Bytes per capability record. -/
def capRec : Nat := 3
/-- Bytes of the LED payload. -/
def ledLen : Nat := 14

end Sys2Proof.Machine.Param
end

