-- ==== Sys2Proof/Machine/Registry.lean ====
section
/-! DEFINITION. The registry REG as data: the 11 rows of 30_encoding.md R58, a read-only constant (10_state.md R20). -/

namespace Sys2Proof.Machine

/-- The 11 variants (10_state.md R13). -/
inductive Variant where
  | poll | id | cap | lstat | led | buz | ack | pdid | pdcap | raw | lstatr
  deriving DecidableEq, Repr

/-- One row of the registry: the code, the fixed reply-direction bit (`false` is 0, a device-bound command; `true` is 1, a
controller-bound reply; 10_state.md R13) and the bytes of the payload's fixed part (41_messages.md R92). -/
structure RegEntry where
  code : Byte
  dir : Bool
  fixedPart : Nat
  deriving DecidableEq, Repr

/-- 30_encoding.md R58, row by row; fixed parts from 41_messages.md R92. -/
def Variant.row : Variant → RegEntry
  | .poll => ⟨0x60, false, 0⟩
  | .id => ⟨0x61, false, 0⟩
  | .cap => ⟨0x62, false, 0⟩
  | .lstat => ⟨0x64, false, 0⟩
  | .led => ⟨0x69, false, Param.ledLen⟩
  | .buz => ⟨0x6A, false, 0⟩
  | .ack => ⟨0x40, true, 0⟩
  | .pdid => ⟨0x45, true, 9⟩
  | .pdcap => ⟨0x46, true, 0⟩
  | .raw => ⟨0x50, true, 4⟩
  | .lstatr => ⟨0x48, true, 2⟩

/-- The variants in the table's order. -/
def registry : List Variant := [.poll, .id, .cap, .lstat, .led, .buz, .ack, .pdid, .pdcap, .raw, .lstatr]

/-- The registry's selection: all 8 bits of the code are compared, and nothing else (30_encoding.md R58). -/
def lookup (code : Byte) : Option Variant := registry.find? (fun v => v.row.code == code)

/-- The variant of a Message. -/
def variant : Message → Variant
  | .poll => .poll
  | .id => .id
  | .cap => .cap
  | .lstat => .lstat
  | .led _ => .led
  | .buz => .buz
  | .ack => .ack
  | .pdid _ => .pdid
  | .pdcap _ => .pdcap
  | .raw _ => .raw
  | .lstatr _ => .lstatr

/-- The fixed code of a Message's variant (41_messages.md R91). -/
def codeOf (m : Message) : Byte := (variant m).row.code

/-- The fixed reply-direction bit of a Message's variant (30_encoding.md R58). -/
def dirOf (m : Message) : Bool := (variant m).row.dir

end Sys2Proof.Machine
end

