-- ==== Sys2Proof/Machine/Operands.lean ====
section
/-! DEFINITION. The operand forms: byte order (00_scope.md R7, 20_memory.md R35, 30_encoding.md R59), the ADDR byte
(30_encoding.md R51), and the payload codec of every variant (41_messages.md R92 to R103). -/

namespace Sys2Proof.Machine

/-- `le16(lo, hi) = lo | (hi << 8)` (00_scope.md R7). -/
def le16 (lo hi : Byte) : BitVec 16 := lo.setWidth 16 ||| (hi.setWidth 16 <<< 8)

/-- `bytes_le16(v) = [v & 0xFF, v >> 8]` (00_scope.md R7). -/
def bytesLe16 (v : BitVec 16) : List Byte := [v.setWidth 8, (v >>> 8).setWidth 8]

/-- `be(s)`: `be([]) = 0`, `be(s ++ [b]) = be(s) * 256 + b` (00_scope.md R7). -/
def be (s : List Byte) : Nat := s.foldl (fun acc b => acc * 256 + b.toNat) 0

/-- `bytes_be_N(v)`: the N-byte big-endian spelling, most significant byte first (00_scope.md R7). -/
def bytesBe : Nat → Nat → List Byte
  | 0, _ => []
  | n + 1, v => bytesBe n (v / 256) ++ [BitVec.ofNat 8 v]

/-- Byte `i` of a sequence, 0 where there is none (40_frame_codec.md R76). -/
def byteAt (s : List Byte) (i : Nat) : Byte := s.getD i 0

/-- The session index `ADDR & 0x7F`; bit 7 is not examined (20_memory.md R39). -/
def deviceAddress (addrByte : Byte) : Addr := (addrByte &&& Param.addrMask).setWidth 7

/-- The ADDR byte `(dir << 7) | addr` (30_encoding.md R51, 42_session.md R122). -/
def addrByte (dir : Bool) (a : Addr) : Byte := (if dir then Param.dirBit else 0) ||| a.setWidth 8

/-- The three bytes of a capability record (41_messages.md R101). -/
def capBytes (c : Capability) : List Byte := [c.functionCode, c.complianceLevel, c.numberOf]

/-- The whole records of a PDCAP payload; a trailing partial record is ignored (41_messages.md R101). -/
def capRecords : List Byte → List Capability
  | f :: l :: n :: rest => ⟨f, l, n⟩ :: capRecords rest
  | [_, _] => []
  | [_] => []
  | [] => []

/-- The 14 bytes of LED in offset order (41_messages.md R97). -/
def ledBytes (p : LedFields) : List Byte :=
  [p.reader, p.led, p.tempControl, p.tempOnTime, p.tempOffTime, p.tempOnColor, p.tempOffColor, p.tempTimerLsb,
    p.tempTimerMsb, p.permControl, p.permOnTime, p.permOffTime, p.permOnColor, p.permOffColor]

/-- `V.enc(m)` (41_messages.md R93 to R103). -/
def payload : Message → List Byte
  | .poll => []
  | .id => []
  | .cap => []
  | .lstat => []
  | .led p => ledBytes p
  | .buz => []
  | .ack => []
  | .pdid p => bytesBe 3 p.vendor.toNat ++ [p.model, p.version] ++ bytesBe 4 p.serial.toNat ++ p.firmware
  | .pdcap caps => caps.flatMap capBytes
  | .raw p => [p.reader, p.formatCode] ++ bytesLe16 p.bitCount ++ p.bits
  | .lstatr p => [p.tamperStatus, p.powerStatus]

/-- LED's fields by offset; read only where there are 14 bytes (41_messages.md R97). -/
def ledFields (d : List Byte) : LedFields :=
  { reader := byteAt d 0, led := byteAt d 1, tempControl := byteAt d 2, tempOnTime := byteAt d 3, tempOffTime := byteAt d 4,
    tempOnColor := byteAt d 5, tempOffColor := byteAt d 6, tempTimerLsb := byteAt d 7, tempTimerMsb := byteAt d 8,
    permControl := byteAt d 9, permOnTime := byteAt d 10, permOffTime := byteAt d 11, permOnColor := byteAt d 12,
    permOffColor := byteAt d 13 }

/-- PDID's fields by offset; read only where there are 9 bytes (41_messages.md R100). -/
def pdidFields (d : List Byte) : PdidFields :=
  { vendor := BitVec.ofNat 24 (be (d.take 3)), model := byteAt d 3, version := byteAt d 4,
    serial := BitVec.ofNat 32 (be ((d.drop 5).take 4)), firmware := d.drop 9 }

/-- RAW's fields by offset; read only where there are 4 bytes (41_messages.md R102). -/
def rawFields (d : List Byte) : RawFields :=
  { reader := byteAt d 0, formatCode := byteAt d 1, bitCount := le16 (byteAt d 2) (byteAt d 3), bits := d.drop 4 }

/-- LSTATR's fields by offset; read only where there are 2 bytes (41_messages.md R103). -/
def lstatrFields (d : List Byte) : LstatrFields :=
  { tamperStatus := byteAt d 0, powerStatus := byteAt d 1 }

/-- The fields of a payload that has its variant's fixed part; surplus bytes are ignored (41_messages.md R92 (b)). -/
def readFields (v : Variant) (d : List Byte) : Message :=
  match v with
  | .poll => .poll
  | .id => .id
  | .cap => .cap
  | .lstat => .lstat
  | .led => .led (ledFields d)
  | .buz => .buz
  | .ack => .ack
  | .pdid => .pdid (pdidFields d)
  | .pdcap => .pdcap (capRecords d)
  | .raw => .raw (rawFields d)
  | .lstatr => .lstatr (lstatrFields d)

/-- `V.dec(d)`: `None` where the data is shorter than the variant's fixed part (41_messages.md R92 (a)). -/
def decPayload (v : Variant) (d : List Byte) : Option Message :=
  if d.length < v.row.fixedPart then none else some (readFields v d)

end Sys2Proof.Machine
end

