-- ==== Sys2Proof/Machine/Flags.lean ====
section
/-! DEFINITION. The flags that are computed: the checksum (40_frame_codec.md R70), `Frame.is_valid` from its four conditions
(R75, R76), the reason an invalid frame is named by (60_exceptions.md R158), and the reply-direction flag of an outbound
frame (42_session.md R122). -/

namespace Sys2Proof.Machine

/-- `sum(s)`: the sum of the bytes as unbounded unsigned integers (40_frame_codec.md R70). -/
def byteSum : List Byte → Nat
  | [] => 0
  | b :: s => b.toNat + byteSum s

/-- `cksum(s) = (256 - (sum(s) mod 256)) mod 256` (40_frame_codec.md R70). -/
def cksum (s : List Byte) : Byte := BitVec.ofNat 8 ((256 - byteSum s % 256) % 256)

/-- V1: the start marker (40_frame_codec.md R75). -/
def startOk (b : List Byte) : Bool := byteAt b 0 == Param.som

/-- V2: neither CRC mode nor secure channel (40_frame_codec.md R75). -/
def modeOk (b : List Byte) : Bool := (byteAt b 4 &&& Param.ctrlReject) == 0

/-- V3: the last byte is the checksum of the rest (40_frame_codec.md R75). -/
def checksumOk (b : List Byte) : Bool := byteAt b (b.length - 1) == cksum (b.take (b.length - 1))

/-- V4: the LEN field is the buffer's length (40_frame_codec.md R75, 90_conflicts.md C2). -/
def lengthOk (b : List Byte) : Bool := (le16 (byteAt b 2) (byteAt b 3)).toNat == b.length

/-- `is_valid`: at least 7 bytes (R76) and V1 to V4 (R75). -/
def validFlag (b : List Byte) : Bool :=
  decide (Param.overhead ≤ b.length) && startOk b && modeOk b && checksumOk b && lengthOk b

/-- Why a buffer is no instruction: E4 to E9 of 60_exceptions.md R150. -/
inductive Reject where
  /-- E4 -/
  | badSom
  /-- E5 -/
  | unsupportedMode
  /-- E6 -/
  | checksum
  /-- E7 -/
  | length
  /-- E8 -/
  | unknownCode
  /-- E9 -/
  | malformedPayload
  deriving DecidableEq, Repr

/-- The reason an invalid buffer is named by, in the order of 60_exceptions.md R158: the length check is the last. It is for
diagnosis only; no flag records it. -/
def invalidReason (b : List Byte) : Reject :=
  if b.length < Param.overhead then .length
  else if !startOk b then .badSom
  else if !modeOk b then .unsupportedMode
  else if !checksumOk b then .checksum
  else .length

/-- The direction flag of an outbound frame: the variant's fixed bit, but 0 for an ACK of a session that is not initialized
(42_session.md R122). -/
def outDir (init : Bool) (m : Message) : Bool := if variant m = .ack ∧ init = false then false else dirOf m

end Sys2Proof.Machine
end

