-- ==== Sys2Proof/Syntax.lean ====
section
/-! DEFINITION. The instructions: one constructor per row of spec/opcode_table.json, an inbound wire message selected by
its CMD byte (INDEX.md). -/

namespace Sys2Proof

/-- A message received: its device address `ADDR & 0x7F` (42_session.md, preamble) and its variant's fields. The frame's CTRL
byte and its ADDR bit 7 are no operands: CTRL is latched when the frame is accepted (43_engine.md R132), bit 7 of an inbound
ADDR is not examined (20_memory.md R39). See log 8. -/
inductive Instr where
  /-- POLL, code 0x60 (R93, R113). -/
  | poll (a : Addr)
  /-- ID, code 0x61 (R94, R114). -/
  | id (a : Addr)
  /-- CAP, code 0x62 (R95, R115). -/
  | cap (a : Addr)
  /-- LSTAT, code 0x64 (R96, R116). -/
  | lstat (a : Addr)
  /-- LED, code 0x69 (R97, R117). -/
  | led (a : Addr) (p : LedFields)
  /-- BUZ, code 0x6A (R98, R118). -/
  | buz (a : Addr)
  /-- ACK, code 0x40 (R99, R119). -/
  | ack (a : Addr)
  /-- PDID, code 0x45 (R100, R119). -/
  | pdid (a : Addr) (p : PdidFields)
  /-- PDCAP, code 0x46 (R101, R119). -/
  | pdcap (a : Addr) (caps : List Capability)
  /-- RAW, code 0x50 (R102, R119). -/
  | raw (a : Addr) (p : RawFields)
  /-- LSTATR, code 0x48 (R103, R119). -/
  | lstatr (a : Addr) (p : LstatrFields)
  deriving DecidableEq, Repr

/-- The device address the frame selects. -/
def Instr.addr : Instr → Addr
  | .poll a => a
  | .id a => a
  | .cap a => a
  | .lstat a => a
  | .led a _ => a
  | .buz a => a
  | .ack a => a
  | .pdid a _ => a
  | .pdcap a _ => a
  | .raw a _ => a
  | .lstatr a _ => a

/-- The Message the frame carries. -/
def Instr.message : Instr → Message
  | .poll _ => .poll
  | .id _ => .id
  | .cap _ => .cap
  | .lstat _ => .lstat
  | .led _ p => .led p
  | .buz _ => .buz
  | .ack _ => .ack
  | .pdid _ p => .pdid p
  | .pdcap _ caps => .pdcap caps
  | .raw _ p => .raw p
  | .lstatr _ p => .lstatr p

/-- The instruction that a Message to a device address is. -/
def Instr.ofMessage (a : Addr) : Message → Instr
  | .poll => .poll a
  | .id => .id a
  | .cap => .cap a
  | .lstat => .lstat a
  | .led p => .led a p
  | .buz => .buz a
  | .ack => .ack a
  | .pdid p => .pdid a p
  | .pdcap caps => .pdcap a caps
  | .raw p => .raw a p
  | .lstatr p => .lstatr a p

end Sys2Proof
end

