-- ==== Sys2Proof/WellFormed.lean ====
section
/-! DEFINITION. Which instructions have an encoding: those whose payload fits a frame, at most 0xFFF8 bytes
(40_frame_codec.md R71; 00_scope.md R4 `MAX_DATA`). Field widths are in the types. -/

namespace Sys2Proof

/-- PDID has 9 fixed bytes, so at most 65519 bytes of firmware (41_messages.md R100). -/
def PdidFields.fits (p : PdidFields) : Bool := decide (p.firmware.length ≤ 65519)

/-- PDCAP has 3 bytes a record, so at most 21842 records (41_messages.md R101). -/
def capsFit (caps : List Capability) : Bool := decide (caps.length ≤ 21842)

/-- RAW has 4 fixed bytes, so at most 65524 bytes of `bits` (41_messages.md R102). -/
def RawFields.fits (p : RawFields) : Bool := decide (p.bits.length ≤ 65524)

/-- The Message's payload fits a frame. -/
def Message.fits : Message → Bool
  | .poll => true
  | .id => true
  | .cap => true
  | .lstat => true
  | .led _ => true
  | .buz => true
  | .ack => true
  | .pdid p => p.fits
  | .pdcap caps => capsFit caps
  | .raw p => p.fits
  | .lstatr _ => true

/-- A well-formed instruction: its Message fits a frame. -/
def Instr.wellFormed (i : Instr) : Bool := i.message.fits

end Sys2Proof
end

