-- ==== Sys2Proof/Decode.lean ====
section
/-! DEFINITION. The frame codec's `decode` and `encode` (40_frame_codec.md R70 to R77), the registry's `REG.decode` and
`REG.encode` (41_messages.md R90, R91), the decoder from a frame's bytes to an instruction, which rejects by name, and after
it the encoder. -/

namespace Sys2Proof

open Machine

/-- The Frame record (10_state.md R11, R12). -/
structure Frame where
  som : Byte
  addr : Byte
  len : BitVec 16
  ctrl : Byte
  cmd : Byte
  data : List Byte
  checksum : Byte
  isValid : Bool
  deriving DecidableEq, Repr

/-- `decode(b)` of the frame codec: total; fields by offset, a missing byte reads 0, DATA is cut by the buffer's length and
is empty below 7 bytes (40_frame_codec.md R74 to R77). -/
def decodeFrame (b : List Byte) : Frame :=
  { som := byteAt b 0
    addr := byteAt b 1
    len := if 4 ≤ b.length then le16 (byteAt b 2) (byteAt b 3) else 0
    ctrl := byteAt b 4
    cmd := byteAt b 5
    data := (b.drop 6).take (b.length - Param.overhead)
    checksum := byteAt b (b.length - 1)
    isValid := validFlag b }

/-- `REG.decode(code, d)` (41_messages.md R90). -/
def regDecode (code : Byte) (d : List Byte) : Option Message :=
  match lookup code with
  | none => none
  | some v => decPayload v d

/-- Which of E8 and E9 a refused code and payload is (60_exceptions.md R150, R152, R153). -/
def regReason (code : Byte) : Reject :=
  match lookup code with
  | none => .unknownCode
  | some _ => .malformedPayload

/-- The instruction that a frame's bytes are, or the name of what is wrong with them, in the order of 60_exceptions.md R158. -/
def decode (b : List Byte) : Except Reject Instr :=
  let f := decodeFrame b
  if f.isValid = false then .error (invalidReason b)
  else
    match regDecode f.cmd f.data with
    | none => .error (regReason f.cmd)
    | some m => .ok (Instr.ofMessage (deviceAddress f.addr) m)

/-- Why `encode` ends without bytes: `EncodeOverflow`, E11 (40_frame_codec.md R72, 60_exceptions.md R156). -/
inductive EncodeError where
  | overflow
  deriving DecidableEq, Repr

/-- The bytes before the checksum (40_frame_codec.md R71). -/
def frameHead (addr ctrl cmd : Byte) (data : List Byte) : List Byte :=
  [Param.som, addr] ++ bytesLe16 (BitVec.ofNat 16 (Param.overhead + data.length)) ++ [ctrl, cmd] ++ data

/-- `encode(addr, ctrl, cmd, data)` of the frame codec; refused above 0xFFF8 data bytes, and it checks nothing else
(40_frame_codec.md R71 to R73). -/
def encodeFrame (addr ctrl cmd : Byte) (data : List Byte) : Except EncodeError (List Byte) :=
  if Param.maxData < data.length then .error .overflow
  else .ok (frameHead addr ctrl cmd data ++ [cksum (frameHead addr ctrl cmd data)])

/-- `REG.encode(m)` (41_messages.md R91). -/
def regEncode (m : Message) : Byte × List Byte := (codeOf m, payload m)

/-- The fields of a frame that no instruction's meaning reads as an operand: ADDR bit 7 and the CTRL byte (log 8). -/
structure Header where
  dir : Bool
  ctrl : Byte
  deriving DecidableEq, Repr

/-- The encoder: the frame of an instruction, for a given ADDR bit 7 and CTRL byte. -/
def encode (h : Header) (i : Instr) : Except EncodeError (List Byte) :=
  encodeFrame (addrByte h.dir i.addr) h.ctrl (regEncode i.message).1 (regEncode i.message).2

/-- The bytes of a word of the opcode table. The table's row numbers the CMD byte from bit 0; bits above it go on into DATA,
which is filled up with zero bytes to the fixed part of the row's payload (log 9). -/
def tableData (nbits w : Nat) : Byte × List Byte :=
  let bs := (List.range ((nbits + 7) / 8)).map (fun i => BitVec.ofNat 8 (w / 256 ^ i))
  let cmd := byteAt bs 0
  let fixed := match lookup cmd with
    | none => 0
    | some v => v.row.fixedPart
  (cmd, bs.drop 1 ++ List.replicate (fixed - (bs.length - 1)) 0)

/-- The whole frame a table word stands for: device address 0, direction bit 0, CTRL 0 (log 9). -/
def tableFrame (nbits w : Nat) : List Byte :=
  match encodeFrame 0 0 (tableData nbits w).1 (tableData nbits w).2 with
  | .ok bs => bs
  | .error _ => []

/-- The instruction the decoder reads from a word of the opcode table (log 9). -/
def decodeTableWord (nbits w : Nat) : Option Instr :=
  match decode (tableFrame nbits w) with
  | .ok i => some i
  | .error _ => none

end Sys2Proof
end

