-- ==== Sys2Proof/Config.lean ====
section
/-! DEFINITION. What the host application fixes from outside: the content of the handler table (10_state.md R19,
43_engine.md R134; 00_scope.md R4 `HND`, "host-supplied", OPEN). A handler of the spec is a function; State is plain data, so
an entry of the table is a name or a datum here (log 3), and what a named host function answers is a free value.
The numeric parameters of 00_scope.md R4 stand in Machine/Params.lean. -/

namespace Sys2Proof

/-- Whom an action of a given handler addresses: the session it was called for (`view.addr`), or a fixed device address. -/
inductive Target where
  | own
  | device (a : Addr)
  deriving DecidableEq, Repr

/-- One action of a handler that is given as data, such as those of 95_test_vectors.md P2 (43_engine.md R134: "a model that
needs concrete handlers must take them as given data"). -/
inductive GivenAction where
  | send (target : Target) (m : Message)
  | enqueue (target : Target) (m : Message)
  deriving DecidableEq, Repr

/-- An entry of the handler table that is not `none` (10_state.md R19; log 3). -/
inductive Handler where
  /-- The reset handler of POLL (42_session.md R113). -/
  | pollDefault
  /-- A handler given as data: the actions it yields for every view and Message. -/
  | given (acts : List GivenAction)
  /-- The host's function number `n`; what it yields is `Config.hostHandler n`, a free value. -/
  | host (n : Nat)
  deriving DecidableEq, Repr

/-- One action of a handler (43_engine.md R134). `register` is the re-registration inside a dispatch of 20_memory.md R40 (3)
and R43, which R134's list of actions does not name (log 4). -/
inductive Action where
  | send (a : Addr) (m : Message)
  | enqueue (a : Addr) (m : Message)
  | register (code : Byte) (h : Handler)
  deriving DecidableEq, Repr

/-- The host's handler functions: from a number, the view `(addr, init, q)` and the Message to a finite list of actions
(43_engine.md R134). No body: whatever holds of the machine holds for every host (log 3). -/
opaque Config.hostHandler (n : Nat) (addr : Addr) (init : Bool) (q : List Message) (m : Message) : List Action

end Sys2Proof
end

