-- ==== Sys2Proof/Machine/State.lean ====
section
/-! DEFINITION. The state of the machine as plain data (10_state.md R10, R15 to R22, R25), the two reason types of a step,
and the state after reset. -/

namespace Sys2Proof.Machine

/-- A session that is present: `addr`, `init`, `q` of 10_state.md R15 to R17. It is also the view a handler gets
(43_engine.md R134). -/
structure Session where
  addr : Addr
  init : Bool
  q : List Message
  deriving DecidableEq, Repr

/-- Who called `send` or `enqueue`. -/
inductive Caller where
  /-- The host, by a step of its own (43_engine.md R137). -/
  | host
  /-- The handler of a code, inside an iteration (43_engine.md R134). -/
  | handler (code : Byte)
  deriving DecidableEq, Repr

/-- What `send` or `enqueue` answers its caller (60_exceptions.md R150, E10 and E11). -/
inductive CallResult where
  | ok
  /-- E10 (60_exceptions.md R154). -/
  | sessionNotFound (a : Addr)
  /-- E11 (60_exceptions.md R156). -/
  | encodeOverflow
  deriving DecidableEq, Repr

/-- One answered call (log 6). -/
structure Return where
  caller : Caller
  result : CallResult
  deriving DecidableEq, Repr

/-- The steps of the model (43_engine.md R137): "each one of: an `Iterate`, a host call, an environment append to `RX`, an
environment removal from `TX`". -/
inductive Event where
  | iterate
  | send (a : Addr) (m : Message)
  | enqueue (a : Addr) (m : Message)
  | register (code : Byte) (h : Handler)
  | rxAppend (bs : List Byte)
  | txTake (n : Nat)
  deriving DecidableEq, Repr

/-- The state. `sess`, `lastCtrl`, `ctrlWritten`, `hnd`, `rx`, `tx` are the spec's; `agenda` and `returns` are the model's own
fields (logs 5, 6). -/
structure State where
  /-- `SESS[0..127]`; `none` is `present = 0` (10_state.md R15). -/
  sess : Vector (Option Session) 128
  /-- `LAST_CTRL` (10_state.md R18). -/
  lastCtrl : Byte
  /-- Whether `LAST_CTRL` has been written; the spec's "unwritten" is `false` (10_state.md R18, R25; log 2). -/
  ctrlWritten : Bool
  /-- `HND[0..255]` (10_state.md R19). -/
  hnd : Vector (Option Handler) 256
  /-- `RX`, oldest byte first (10_state.md R21). -/
  rx : List Byte
  /-- `TX`, oldest byte first (10_state.md R21). -/
  tx : List Byte
  /-- The steps that come before the engine's next free iteration (log 5). -/
  agenda : List Event
  /-- The results of calls, as their callers received them, oldest first (log 6). -/
  returns : List Return
  deriving DecidableEq, Repr

/-- The reasons a step could stop with a fault: none. "No error in this subsystem is fatal to the process; every recognized
error degrades to 'drop and continue'" (60_exceptions.md, preamble; log 24). Nobody raises one; safe. -/
inductive Fault where
  deriving DecidableEq, Repr

/-- The reasons a step could be refused. -/
inductive Refusal where
  /-- Raised by an arm of `exec` whose instruction has no meaning yet; no arm is so. Safe: the model stops. -/
  | notModelled (mnemonic : String)
  deriving DecidableEq, Repr

/-- The state after reset (10_state.md R25, 70_reset_and_hazards.md R170): no session, `HND[0x60] = PollDefault` and every
other entry none, RX and TX empty. `LAST_CTRL` is unwritten; the byte 0x00 in it is the model's (log 1). -/
def State.reset : State :=
  { sess := Vector.replicate 128 none
    lastCtrl := 0x00
    ctrlWritten := false
    hnd := (Vector.replicate 256 none).set 0x60 (some .pollDefault)
    rx := []
    tx := []
    agenda := []
    returns := [] }

end Sys2Proof.Machine
end

