-- ==== Sys2Proof/Machine/Ops.lean ====
section
/-! DEFINITION. The named operations over the state: the register accessors, the transport (20_memory.md R32 to R34),
`read_from_stream` (40_frame_codec.md R78), the session operations (42_session.md R110, R111, R113, R120), `send`,
`register_handler` and the running of a handler (43_engine.md R133 to R136), and the drop that stands for an exception
(60_exceptions.md R159). -/

namespace Sys2Proof.Machine

/-- The outcome of a step. -/
abbrev Result := Host.Outcome State Fault Refusal

/-- `SESS[a]`. -/
def State.session (s : State) (a : Addr) : Option Session := s.sess[a.toNat]'a.isLt

/-- `SESS[a] <- se`. -/
def State.setSession (s : State) (a : Addr) (se : Session) : State :=
  { s with sess := s.sess.set a.toNat (some se) a.isLt }

/-- `HND[c]`. -/
def State.handler (s : State) (c : Byte) : Option Handler := s.hnd[c.toNat]'c.isLt

/-- `HND[c] <- h`. -/
def State.setHandler (s : State) (c : Byte) (h : Handler) : State :=
  { s with hnd := s.hnd.set c.toNat (some h) c.isLt }

/-- `LAST_CTRL <- c` (43_engine.md R132). -/
def State.latch (s : State) (c : Byte) : State := { s with lastCtrl := c, ctrlWritten := true }

/-- The answer of a call goes to its caller (log 6). -/
def State.report (s : State) (caller : Caller) (r : CallResult) : State :=
  { s with returns := s.returns ++ [⟨caller, r⟩] }

/-- `RxAvail()` (20_memory.md R34). -/
def rxAvail (s : State) : Nat := s.rx.length

/-- `RxRead(n)`: removes and returns the first `min(n, len(RX))` bytes (20_memory.md R32). -/
def rxRead (n : Nat) (s : State) : List Byte × State := (s.rx.take n, { s with rx := s.rx.drop n })

/-- `TxWrite(bs)`: appends, accepts every byte, answers the count (20_memory.md R33). -/
def txWrite (bs : List Byte) (s : State) : Nat × State := (bs.length, { s with tx := s.tx ++ bs })

/-- Why `read_from_stream` has no frame: E1 to E3 of 60_exceptions.md R150. -/
inductive NoFrame where
  /-- E1 -/
  | notSom
  /-- E2 -/
  | shortLength
  /-- E3 -/
  | exhausted
  deriving DecidableEq, Repr

/-- The reads of `read_from_stream`: the buffer it hands to `decode`, or why there is none (40_frame_codec.md R78, R80). -/
def assemble (s : State) : Except NoFrame (List Byte) × State :=
  match rxRead 1 s with
  | ([], s1) => (.error .exhausted, s1)
  | (b :: _, s1) =>
    if b ≠ Param.som then (.error .notSom, s1)
    else
      match rxRead Param.hdrRest s1 with
      | (h, s2) =>
        if h.length < Param.hdrRest then (.error .exhausted, s2)
        else if (le16 (byteAt h 1) (byteAt h 2)).toNat < Param.minStreamLen then (.error .shortLength, s2)
        else
          match rxRead ((le16 (byteAt h 1) (byteAt h 2)).toNat - 4) s2 with
          | (body, s3) => (.ok (b :: (h ++ body)), s3)

/-- `read_from_stream()` (40_frame_codec.md R78): `None`, or the Frame of the assembled buffer. -/
def readFromStream (s : State) : Option Frame × State :=
  match assemble s with
  | (.error _, s1) => (none, s1)
  | (.ok b, s1) => (some (decodeFrame b), s1)

/-- A session at its creation (42_session.md R110). -/
def freshSession (a : Addr) : Session := { addr := a, init := false, q := [] }

/-- `get_or_create(a)` (42_session.md R110). -/
def getOrCreate (a : Addr) (s : State) : State :=
  match s.session a with
  | none => s.setSession a (freshSession a)
  | some _ => s

/-- `SESS[a].init <- b` of a present session (10_state.md R16); an absent entry has no `init`. -/
def setInit (a : Addr) (b : Bool) (s : State) : State :=
  match s.session a with
  | none => s
  | some se => s.setSession a { se with init := b }

/-- `out_addr(a, m)`, the ADDR byte of an outbound frame (42_session.md R122). -/
def outAddr (se : Session) (m : Message) : Byte := addrByte (outDir se.init m) se.addr

/-- `send(a, m)` (43_engine.md R135): E10 is tested before E11 (60_exceptions.md R158); nothing is written in either case. -/
def send (a : Addr) (m : Message) (s : State) : CallResult × State :=
  match s.session a with
  | none => (.sessionNotFound a, s)
  | some se =>
    match encodeFrame (outAddr se m) s.lastCtrl (regEncode m).1 (regEncode m).2 with
    | .error _ => (.encodeOverflow, s)
    | .ok bs => (.ok, (txWrite bs s).2)

/-- `enqueue(a, m)` (42_session.md R120). -/
def enqueue (a : Addr) (m : Message) (s : State) : CallResult × State :=
  match s.session a with
  | none => (.sessionNotFound a, s)
  | some se => (.ok, s.setSession a { se with q := se.q ++ [m] })

/-- `register_handler(code, h)` (43_engine.md R136). -/
def registerHandler (code : Byte) (h : Handler) (s : State) : State := s.setHandler code h

/-- `PollDefault(a, m)` (42_session.md R113): the head of the queue leaves it and is sent, or an ACK is sent. The result of
the `send` goes to nobody: a Message that overflows is lost (60_exceptions.md R156). -/
def pollDefault (a : Addr) (s : State) : State :=
  match s.session a with
  | none => s
  | some se =>
    match se.q with
    | r :: rest => (send a r (s.setSession a { se with q := rest })).2
    | [] => (send a .ack s).2

/-- A `send` or `enqueue` whose answer goes to `caller`. -/
def answered (caller : Caller) (r : CallResult × State) : State := r.2.report caller r.1

/-- One action of a handler (43_engine.md R134). -/
def perform (caller : Caller) (s : State) : Action → State
  | .send a m => answered caller (send a m s)
  | .enqueue a m => answered caller (enqueue a m s)
  | .register code h => registerHandler code h s

/-- The actions in list order; one that ends in an error does not stop the rest (43_engine.md R134). -/
def runActions (caller : Caller) : List Action → State → State
  | [], s => s
  | act :: acts, s => runActions caller acts (perform caller s act)

/-- The action that an action given as data is, for the session at `own`. -/
def toAction (own : Addr) : GivenAction → Action
  | .send .own m => .send own m
  | .send (.device a) m => .send a m
  | .enqueue .own m => .enqueue own m
  | .enqueue (.device a) m => .enqueue a m

/-- The actions a handler yields for a view and a Message (43_engine.md R134). `PollDefault` is no list of actions: it
dequeues (42_session.md R113, R121). -/
def handlerActions (h : Handler) (view : Session) (m : Message) : List Action :=
  match h with
  | .pollDefault => []
  | .given acts => acts.map (toAction view.addr)
  | .host n => Config.hostHandler n view.addr view.init view.q m

/-- `RunHandler(h, a, m)` for a host handler (43_engine.md R134). A session that is not present gives the handler no view:
R133 has it present, so `exec` never takes that branch (log 23). -/
def runHandler (h : Handler) (a : Addr) (code : Byte) (m : Message) (s : State) : State :=
  match s.session a with
  | none => s
  | some view => runActions (.handler code) (handlerActions h view m) s

/-- The part of `Dispatch(a, code, m)` after the hardwired transition (43_engine.md R133, R138). -/
def callHandler (a : Addr) (m : Message) (s : State) : State :=
  match s.handler (codeOf m) with
  | none => s
  | some .pollDefault => pollDefault a s
  | some h => runHandler h a (codeOf m) m s

/-- Receiving a message with no hardwired transition: the session exists from then on, and the handler runs
(43_engine.md R130, R133). -/
def receive (a : Addr) (m : Message) (s : State) : State := callHandler a m (getOrCreate a s)

/-- Receiving ID or CAP: the hardwired transition comes before the handler (42_session.md R112, 43_engine.md R133). -/
def receiveInit (a : Addr) (b : Bool) (m : Message) (s : State) : State :=
  callHandler a m (setInit a b (getOrCreate a s))

/-- The hardware's exception: the early return of `Iterate`. "Nothing is saved, no mode changes, no handler of the hardware
runs, control goes to the next iteration" (60_exceptions.md R159); there is no return from it (R160). -/
def dropFrame (s : State) : Result := .next s

end Sys2Proof.Machine
end

