-- ==== Sys2Proof/Machine/Commands.lean ====
section
/-! DEFINITION. The meanings of the six commands received (dir = 0): POLL, ID, CAP, LSTAT, LED, BUZ (42_session.md R113 to R118). -/

namespace Sys2Proof.Machine

/-- POLL: no hardwired effect on the session; the handler, `PollDefault` after reset (42_session.md R113). -/
def execPoll (a : Addr) (s : State) : Result := .next (receive a .poll s)

/-- ID: `init <- false`, then the handler (42_session.md R114). -/
def execId (a : Addr) (s : State) : Result := .next (receiveInit a false .id s)

/-- CAP: `init <- true`, then the handler (42_session.md R115). -/
def execCap (a : Addr) (s : State) : Result := .next (receiveInit a true .cap s)

/-- LSTAT: no hardwired effect; the handler (42_session.md R116). -/
def execLstat (a : Addr) (s : State) : Result := .next (receive a .lstat s)

/-- LED: no hardwired effect and no LED field stored; the handler, with the 14 fields (42_session.md R117). -/
def execLed (a : Addr) (p : LedFields) (s : State) : Result := .next (receive a (.led p) s)

/-- BUZ: no hardwired effect; the handler (42_session.md R118). -/
def execBuz (a : Addr) (s : State) : Result := .next (receive a .buz s)

end Sys2Proof.Machine
end

