-- ==== Sys2Proof/Machine/Replies.lean ====
section
/-! DEFINITION. The meanings of the five reply variants when received (dir = 1): ACK, PDID, PDCAP, RAW, LSTATR. They are
dispatched like commands, with no transition (42_session.md R119). -/

namespace Sys2Proof.Machine

/-- ACK received (42_session.md R119). -/
def execAck (a : Addr) (s : State) : Result := .next (receive a .ack s)

/-- PDID received (42_session.md R119). -/
def execPdid (a : Addr) (p : PdidFields) (s : State) : Result := .next (receive a (.pdid p) s)

/-- PDCAP received (42_session.md R119). -/
def execPdcap (a : Addr) (caps : List Capability) (s : State) : Result := .next (receive a (.pdcap caps) s)

/-- RAW received (42_session.md R119). -/
def execRaw (a : Addr) (p : RawFields) (s : State) : Result := .next (receive a (.raw p) s)

/-- LSTATR received (42_session.md R119). -/
def execLstatr (a : Addr) (p : LstatrFields) (s : State) : Result := .next (receive a (.lstatr p) s)

end Sys2Proof.Machine
end

