-- ==== Sys2Proof/Machine/Dispatch.lean ====
section
/-! DEFINITION. What each message does when it is received: one arm per row of spec/opcode_table.json. -/

namespace Sys2Proof.Machine

def exec (i : Instr) (s : State) : Host.Outcome State Fault Refusal :=
  match i with
  | .poll a => Sys2Proof.Machine.execPoll a s
  | .id a => Sys2Proof.Machine.execId a s
  | .cap a => Sys2Proof.Machine.execCap a s
  | .lstat a => Sys2Proof.Machine.execLstat a s
  | .led a p => Sys2Proof.Machine.execLed a p s
  | .buz a => Sys2Proof.Machine.execBuz a s
  | .ack a => Sys2Proof.Machine.execAck a s
  | .pdid a p => Sys2Proof.Machine.execPdid a p s
  | .pdcap a caps => Sys2Proof.Machine.execPdcap a caps s
  | .raw a p => Sys2Proof.Machine.execRaw a p s
  | .lstatr a p => Sys2Proof.Machine.execLstatr a p s

end Sys2Proof.Machine
end

