-- ==== Sys2Proof/Machine/Engine.lean ====
section
/-! DEFINITION. The engine's loop iteration (43_engine.md R130 to R132) and the other steps of the model (R137). -/

namespace Sys2Proof.Machine

/-- What an iteration finds at the head of RX. -/
inductive Fetched where
  /-- RX is empty (43_engine.md R131). -/
  | idle
  /-- E1 to E3: `read_from_stream` has no frame. -/
  | noFrame (why : NoFrame)
  /-- E4 to E9: a frame that is dropped. -/
  | rejected (why : Reject)
  /-- A frame that carries an instruction. -/
  | run (i : Instr)
  deriving DecidableEq, Repr

/-- `Iterate` up to the dispatch (43_engine.md R130): the bytes leave RX; a valid frame's CTRL byte is latched before the
registry is asked (R132). The reason a frame is dropped is named for diagnosis only (60_exceptions.md R158). -/
def fetch (s : State) : Fetched × State :=
  if rxAvail s = 0 then (.idle, s)
  else
    match assemble s with
    | (.error e, s1) => (.noFrame e, s1)
    | (.ok b, s1) =>
      let f := decodeFrame b
      if f.isValid = false then (.rejected (invalidReason b), s1)
      else
        match regDecode f.cmd f.data with
        | none => (.rejected (regReason f.cmd), s1.latch f.ctrl)
        | some m => (.run (Instr.ofMessage (deviceAddress f.addr) m), s1.latch f.ctrl)

/-- `Iterate()` (43_engine.md R130): idle changes nothing (R131), a drop is the early return, an instruction is executed. -/
def iterate (s : State) : Result :=
  match fetch s with
  | (.idle, s1) => .next s1
  | (.noFrame _, s1) => dropFrame s1
  | (.rejected _, s1) => dropFrame s1
  | (.run i, s1) => exec i s1

/-- One step of the model (43_engine.md R137). A host call's answer goes to the host (60_exceptions.md R154, R156);
`register_handler` has none (43_engine.md R136). The environment appends to RX and removes from TX (20_memory.md R31). -/
def runEvent (e : Event) (s : State) : Result :=
  match e with
  | .iterate => iterate s
  | .send a m => .next (answered .host (send a m s))
  | .enqueue a m => .next (answered .host (enqueue a m s))
  | .register code h => .next (registerHandler code h s)
  | .rxAppend bs => .next { s with rx := s.rx ++ bs }
  | .txTake n => .next { s with tx := s.tx.drop n }

end Sys2Proof.Machine
end

