-- ==== Sys2Proof/Machine/Step.lean ====
section
/-! DEFINITION. The step: the next entry of the agenda, or, when it is empty, the engine's next iteration (43_engine.md R130,
R137; log 5). -/

namespace Sys2Proof.Machine

/-- One step. -/
def step (s : State) : Host.Outcome State Fault Refusal :=
  match s.agenda with
  | [] => iterate s
  | e :: rest => runEvent e { s with agenda := rest }

/-- `s` with the frame of an opcode-table word at the head of RX, and the engine's iteration next: the transport has
delivered the frame (20_memory.md R31; log 9). -/
def State.withFetchWord (s : State) (nbits w : Nat) : State :=
  { s with rx := tableFrame nbits w ++ s.rx, agenda := .iterate :: s.agenda }

end Sys2Proof.Machine
end

