-- ==== Sys2Proof/Safety.lean ====
section
/-! DEFINITION. What claims are stated in: the machine's invariant, the instruction a step executes, what TX is made of, and
quiescence. -/

namespace Sys2Proof.Machine

/-- A session entry is what R15, R16 say of it: its `addr` is its index (10_state.md R15: "written once at creation with the
index a"), and it exists only once `LAST_CTRL` has been written (10_state.md R18). The byte in `LAST_CTRL` has neither mode
bit set (10_state.md R18: "`LAST_CTRL & 0x06 = 0` whenever it holds a value"). -/
structure Invariant (s : State) : Prop where
  addr_eq : ∀ a se, s.session a = some se → se.addr = a
  ctrl_ok : s.lastCtrl &&& Param.ctrlReject = 0
  written : ∀ a, (s.session a).isSome = true → s.ctrlWritten = true

/-- The state an iteration of this step starts from, where the step is an iteration. -/
def iterationStart (s : State) : Option State :=
  match s.agenda with
  | [] => some s
  | .iterate :: rest => some { s with agenda := rest }
  | _ :: _ => none

/-- The instruction the step executes, where it executes one. -/
def executes (s : State) : Option Instr :=
  match iterationStart s with
  | none => none
  | some s0 =>
    match (fetch s0).1 with
    | .run i => some i
    | .idle => none
    | .noFrame _ => none
    | .rejected _ => none

/-- A frame spelled out byte by byte (30_encoding.md R50, 40_frame_codec.md R71). -/
def wireFrame (addr ctrl cmd : Byte) (data : List Byte) : List Byte :=
  let head := [0x53, addr, BitVec.ofNat 8 (7 + data.length), BitVec.ofNat 8 ((7 + data.length) / 256), ctrl, cmd] ++ data
  head ++ [cksum head]

/-- The frame `send` writes for a Message of a session while `LAST_CTRL` holds `ctrl` (43_engine.md R135). -/
def messageFrame (se : Session) (ctrl : Byte) (m : Message) : List Byte :=
  wireFrame (outAddr se m) ctrl (codeOf m) (payload m)

/-- The entry `get_or_create` finds or makes (42_session.md R110). -/
def sessionOr (s : State) (a : Addr) : Session := (s.session a).getD { addr := a, init := false, q := [] }

/-- The same message received `n` times. -/
def repeatExec (i : Instr) : Nat → State → Result
  | 0, s => .next s
  | n + 1, s =>
    match exec i s with
    | .next t => repeatExec i n t
    | .fault r => .fault r
    | .refused r => .refused r

/-- The 11 registered codes (30_encoding.md R58). -/
def registeredCodes : List Byte := [0x60, 0x61, 0x62, 0x64, 0x69, 0x6A, 0x40, 0x45, 0x46, 0x50, 0x48]

/-- `bs` is a run of whole valid frames whose CTRL byte is `c` (20_memory.md R45, 43_engine.md R135). -/
def WholeFrames (c : Byte) (bs : List Byte) : Prop :=
  ∃ frames : List (List Byte), bs = frames.flatten ∧ ∀ f ∈ frames, validFlag f = true ∧ byteAt f 4 = c

/-- The calls of the host among the steps (43_engine.md R137). -/
def Event.isHostCall : Event → Bool
  | .iterate => false
  | .send _ _ => true
  | .enqueue _ _ => true
  | .register _ _ => true
  | .rxAppend _ => false
  | .txTake _ => false

/-- Quiescence: "`RX` empty, no host call pending" (70_reset_and_hazards.md R181). It "does not say [...] that `TX` has been
delivered to a CP, or that no more bytes will arrive": a pending removal, append or iteration is no bar. -/
def Quiescent (s : State) : Prop := s.rx = [] ∧ ∀ e ∈ s.agenda, e.isHostCall = false

/-- The observable result of a run: `TX` together with `SESS` and `LAST_CTRL`, `none` where it is unwritten
(70_reset_and_hazards.md R181, 10_state.md R18). DESIGN CHOICE (log 28): `tx` is TX as it is left, without the bytes that the
environment has removed before; R181's gloss is every frame written. -/
structure Observed where
  tx : List Byte
  sess : Vector (Option Session) 128
  lastCtrl : Option Byte
  deriving DecidableEq, Repr

/-- What is observed of a state; its TX is the one that is left (log 28). -/
def State.observed (s : State) : Observed :=
  { tx := s.tx, sess := s.sess, lastCtrl := if s.ctrlWritten then some s.lastCtrl else none }

/-- `init` of a session after the hardwired transition for a Message (42_session.md R112). -/
def initAfter (m : Message) (before : Bool) : Bool :=
  match m with
  | .id => false
  | .cap => true
  | .poll => before
  | .lstat => before
  | .led _ => before
  | .buz => before
  | .ack => before
  | .pdid _ => before
  | .pdcap _ => before
  | .raw _ => before
  | .lstatr _ => before

end Sys2Proof.Machine
end

