-- ==== Sys2Proof/Certificates/Slice0/Obligations.lean ====
section
/-! DEFINITION. The statements about the machine, from the numbered rules of spec/. A docstring names the rule it states, or,
where the rule is marked there as a decision or an inference of the spec's own, the section it rests on. -/

open Sys2Proof Sys2Proof.Machine

/- ## The frame codec -/

/-- R70: the checksum's value, its law, its bound, its corner cases and its worked example. -/
def Obligations.ChecksumIsNegatedByteSum : Prop :=
  (∀ s : List Byte,
    (cksum s).toNat = (256 - (s.map BitVec.toNat).sum % 256) % 256 ∧
    ((s.map BitVec.toNat).sum + (cksum s).toNat) % 256 = 0 ∧
    ((s.map BitVec.toNat).sum % 256 = 0 → cksum s = 0) ∧
    (s.length ≤ 65534 → (s.map BitVec.toNat).sum < 2 ^ 24)) ∧
  cksum [] = 0 ∧ cksum [0x53, 0x01, 0x07, 0x00, 0x00, 0x60] = 0x45

/-- R71: the frame `encode` answers, byte by byte, its length, and its worked example. -/
def Obligations.EncodeLaysOutTheFrame : Prop :=
  (∀ (addr ctrl cmd : Byte) (data : List Byte), data.length ≤ 0xFFF8 →
    encodeFrame addr ctrl cmd data = .ok (wireFrame addr ctrl cmd data) ∧
    (wireFrame addr ctrl cmd data).length = 7 + data.length) ∧
  encodeFrame 0x01 0x00 0x40 [] = .ok [0x53, 0x01, 0x07, 0x00, 0x00, 0x40, 0x65]

/-- 40_frame_codec.md section 2, the rule on longer data (the spec's decision D19): refused, no bytes, and a `send` of such a
Message changes no state. -/
def Obligations.EncodeRefusesOversizedData : Prop :=
  (∀ (addr ctrl cmd : Byte) (data : List Byte), 0xFFF8 < data.length → encodeFrame addr ctrl cmd data = .error .overflow) ∧
  (∀ (a : Addr) (m : Message) (s : State) (se : Session), s.session a = some se → 0xFFF8 < (payload m).length →
    send a m s = (.encodeOverflow, s))

/-- R75: the four conditions of `is_valid` for a buffer of at least 7 bytes (the fourth by 90_conflicts.md C2), and the worked
examples. -/
def Obligations.ValidityIsFourConditions : Prop :=
  (∀ b : List Byte, 7 ≤ b.length →
    ((decodeFrame b).isValid = true ↔
      b[0]? = some 0x53 ∧ (∃ c, b[4]? = some c ∧ c &&& 0x06 = 0) ∧ b.getLast? = some (cksum b.dropLast) ∧
      ∃ l h, b[2]? = some l ∧ b[3]? = some h ∧ l.toNat + 256 * h.toNat = b.length)) ∧
  decodeFrame [0x53, 0x01, 0x07, 0x00, 0x00, 0x60, 0x45] = ⟨0x53, 0x01, 7, 0x00, 0x60, [], 0x45, true⟩ ∧
  decodeFrame [0x53, 0x01, 0x07, 0x00, 0x02, 0x60, 0x43] = ⟨0x53, 0x01, 7, 0x02, 0x60, [], 0x43, false⟩

/-- 40_frame_codec.md section 3, `decode` below 7 bytes (the spec's decision D4): invalid, missing bytes read 0. -/
def Obligations.ShortBufferIsInvalid : Prop :=
  ∀ b : List Byte, b.length < 7 →
    decodeFrame b =
      { som := b.getD 0 0, addr := b.getD 1 0,
        len := if 4 ≤ b.length then le16 (b.getD 2 0) (b.getD 3 0) else 0,
        ctrl := b.getD 4 0, cmd := b.getD 5 0, data := [], checksum := b.getLastD 0, isValid := false }

/-- 40_frame_codec.md section 3, field extraction (the spec's decision D3 cuts DATA by the buffer's length): the fields of a
buffer of at least 7 bytes are its bytes in order. -/
def Obligations.FrameFieldsAreTheBytesInOrder : Prop :=
  ∀ b : List Byte, 7 ≤ b.length →
    ∃ lo hi : Byte,
      b = (decodeFrame b).som :: (decodeFrame b).addr :: lo :: hi :: (decodeFrame b).ctrl :: (decodeFrame b).cmd ::
        ((decodeFrame b).data ++ [(decodeFrame b).checksum]) ∧
      (decodeFrame b).len.toNat = lo.toNat + 256 * hi.toNat

/-- 40_frame_codec.md section 5, checksum round trip (an inference the spec marks): every field comes back. -/
def Obligations.DecodeOfEncodedFrame : Prop :=
  ∀ (addr ctrl cmd : Byte) (data : List Byte), ctrl &&& 0x06 = 0 → data.length ≤ 0xFFF8 →
    ∃ bs, encodeFrame addr ctrl cmd data = .ok bs ∧
      decodeFrame bs =
        { som := 0x53, addr := addr, len := BitVec.ofNat 16 (7 + data.length), ctrl := ctrl, cmd := cmd, data := data,
          checksum := cksum (bs.take (6 + data.length)), isValid := true }

/-- 40_frame_codec.md section 5, corruption detection (an inference the spec marks): a change of exactly one byte. -/
def Obligations.OneByteCorruptionIsDetected : Prop :=
  ∀ (b : List Byte) (i : Nat) (v w : Byte), (decodeFrame b).isValid = true → b[i]? = some v → w ≠ v →
    (decodeFrame (b.set i w)).isValid = false

/-- 40_frame_codec.md section 5, decode then encode (an inference the spec marks): a valid frame has one spelling. -/
def Obligations.ValidFrameHasOneSpelling : Prop :=
  ∀ b : List Byte, (decodeFrame b).isValid = true →
    encodeFrame (decodeFrame b).addr (decodeFrame b).ctrl (decodeFrame b).cmd (decodeFrame b).data = .ok b

/- ## The registry -/

/-- R58: the 11 rows, code and direction and payload length, pairwise different codes, and the selection by CMD alone. -/
def Obligations.CodeMapHasElevenRows : Prop :=
  (∀ m : Message, (codeOf m, dirOf m, (payload m).length) =
    match m with
    | .poll => (0x60, false, 0)
    | .id => (0x61, false, 0)
    | .cap => (0x62, false, 0)
    | .lstat => (0x64, false, 0)
    | .led _ => (0x69, false, 14)
    | .buz => (0x6A, false, 0)
    | .ack => (0x40, true, 0)
    | .pdid p => (0x45, true, 9 + p.firmware.length)
    | .pdcap caps => (0x46, true, 3 * caps.length)
    | .raw p => (0x50, true, 4 + p.bits.length)
    | .lstatr _ => (0x48, true, 2)) ∧
  registry.map (fun v => v.row.code) = registeredCodes ∧ registeredCodes.Nodup ∧ registeredCodes.length = 11 ∧
  (∀ c : Byte, lookup c = none ↔ c ∉ registeredCodes) ∧
  ∀ m : Message, lookup (codeOf m) = some (variant m)

/-- 41_messages.md section 1 (`REG.decode` with the spec's decisions D8, D9): nothing for an unregistered code or for data
shorter than the fixed part, and otherwise a Message of that code. -/
def Obligations.RegistryDecodesExactly : Prop :=
  ∀ (c : Byte) (d : List Byte),
    (regDecode c d = none ↔
      c ∉ registeredCodes ∨ (c = 0x69 ∧ d.length < 14) ∨ (c = 0x45 ∧ d.length < 9) ∨ (c = 0x50 ∧ d.length < 4) ∨
        (c = 0x48 ∧ d.length < 2)) ∧
    ∀ m, regDecode c d = some m → codeOf m = c

/-- 41_messages.md section 4, round trip per message type (an inference the spec marks), for every Message of the 11 variants. -/
def Obligations.MessageRoundTrip : Prop :=
  ∀ m : Message, regDecode (regEncode m).1 (regEncode m).2 = some m

/-- 41_messages.md section 4, the converse of the round trip (an inference the spec marks): a payload with no ignored bytes is
spelled back as it was. -/
def Obligations.PayloadWithoutSurplusIsSpelledBack : Prop :=
  ∀ (c : Byte) (d : List Byte) (m : Message), regDecode c d = some m →
    (match m with
      | .led _ => d.length = 14
      | .lstatr _ => d.length = 2
      | .pdcap _ => d.length % 3 = 0
      | .pdid _ => True
      | .raw _ => True
      | _ => d.length = 0) →
    regEncode m = (c, d)

/-- R93, R94, R95, R96, R98: the empty-payload commands, with their worked example frames. -/
def Obligations.EmptyPayloadCommands : Prop :=
  (∀ d : List Byte, regDecode 0x60 d = some .poll ∧ regDecode 0x61 d = some .id ∧ regDecode 0x62 d = some .cap ∧
    regDecode 0x64 d = some .lstat ∧ regDecode 0x6A d = some .buz) ∧
  (∀ m ∈ [Message.poll, .id, .cap, .lstat, .buz], payload m = [] ∧ dirOf m = false) ∧
  decode [0x53, 0x01, 0x07, 0x00, 0x00, 0x60, 0x45] = .ok (.poll 1) ∧
  decode [0x53, 0x01, 0x07, 0x00, 0x00, 0x61, 0x44] = .ok (.id 1) ∧
  decode [0x53, 0x01, 0x08, 0x00, 0x00, 0x61, 0x00, 0x43] = .ok (.id 1) ∧
  decode [0x53, 0x01, 0x07, 0x00, 0x00, 0x62, 0x43] = .ok (.cap 1) ∧
  decode [0x53, 0x01, 0x07, 0x00, 0x00, 0x64, 0x41] = .ok (.lstat 1) ∧
  decode [0x53, 0x01, 0x07, 0x00, 0x00, 0x6A, 0x3B] = .ok (.buz 1) ∧
  decode [0x53, 0x01, 0x0C, 0x00, 0x00, 0x6A, 0x00, 0x02, 0x01, 0x01, 0x01, 0x31] = .ok (.buz 1)

/-- R97: LED's 14 fields by offset, surplus ignored, too short refused, spelled back, no field acted on, and the worked example. -/
def Obligations.LedPayloadByOffset : Prop :=
  (codeOf (.led ⟨0, 0, 0, 0, 0, 0, 0, 0, 0, 0, 0, 0, 0, 0⟩) = 0x69 ∧ dirOf (.led ⟨0, 0, 0, 0, 0, 0, 0, 0, 0, 0, 0, 0, 0, 0⟩) = false) ∧
  (∀ d : List Byte, d.length < 14 → regDecode 0x69 d = none) ∧
  (∀ (b0 b1 b2 b3 b4 b5 b6 b7 b8 b9 b10 b11 b12 b13 : Byte) (rest : List Byte),
    regDecode 0x69 ([b0, b1, b2, b3, b4, b5, b6, b7, b8, b9, b10, b11, b12, b13] ++ rest) =
      some (.led
        { reader := b0, led := b1, tempControl := b2, tempOnTime := b3, tempOffTime := b4, tempOnColor := b5,
          tempOffColor := b6, tempTimerLsb := b7, tempTimerMsb := b8, permControl := b9, permOnTime := b10,
          permOffTime := b11, permOnColor := b12, permOffColor := b13 })) ∧
  (∀ p : LedFields, payload (.led p) =
    [p.reader, p.led, p.tempControl, p.tempOnTime, p.tempOffTime, p.tempOnColor, p.tempOffColor, p.tempTimerLsb,
      p.tempTimerMsb, p.permControl, p.permOnTime, p.permOffTime, p.permOnColor, p.permOffColor]) ∧
  (∀ (a : Addr) (p p' : LedFields) (s : State), s.handler 0x69 = none → exec (.led a p) s = exec (.led a p') s) ∧
  decode [0x53, 0x01, 0x15, 0x00, 0x00, 0x69, 0x00, 0x00, 0x02, 0x05, 0x05, 0x01, 0x00, 0x1E, 0x00, 0x01, 0x01, 0x00, 0x02,
      0x00, 0xFF] =
    .ok (.led 1 ⟨0, 0, 2, 5, 5, 1, 0, 0x1E, 0, 1, 1, 0, 2, 0⟩)

/-- 41_messages.md section 3, PDID (the spec's decision D10 carries firmware bytes unchecked): big-endian `vendor` and `serial`,
`firmware` the remaining bytes, too short refused. -/
def Obligations.PdidPayloadBigEndian : Prop :=
  (∀ d : List Byte, d.length < 9 → regDecode 0x45 d = none) ∧
  ∀ (v0 v1 v2 model version s0 s1 s2 s3 : Byte) (fw : List Byte),
    ∃ p : PdidFields,
      regDecode 0x45 ([v0, v1, v2, model, version, s0, s1, s2, s3] ++ fw) = some (.pdid p) ∧
      p.vendor.toNat = v0.toNat * 65536 + v1.toNat * 256 + v2.toNat ∧
      p.model = model ∧ p.version = version ∧
      p.serial.toNat = s0.toNat * 16777216 + s1.toNat * 65536 + s2.toNat * 256 + s3.toNat ∧
      p.firmware = fw ∧
      payload (.pdid p) = [v0, v1, v2, model, version, s0, s1, s2, s3] ++ fw

/-- R101: PDCAP's records in order, a trailing partial record ignored, the round trip, the largest list that fits a frame, and
the worked examples. -/
def Obligations.PdcapRecordsInOrder : Prop :=
  (∀ d : List Byte, ∃ caps : List Capability,
    regDecode 0x46 d = some (.pdcap caps) ∧ caps.length = d.length / 3 ∧
    (∀ i, i < d.length / 3 → caps[i]? = some ⟨d.getD (3 * i) 0, d.getD (3 * i + 1) 0, d.getD (3 * i + 2) 0⟩) ∧
    payload (.pdcap caps) = d.take (3 * (d.length / 3))) ∧
  (∀ caps : List Capability,
    payload (.pdcap caps) = (caps.map (fun c => [c.functionCode, c.complianceLevel, c.numberOf])).flatten ∧
    regDecode 0x46 (payload (.pdcap caps)) = some (.pdcap caps) ∧
    ((∃ bs, encodeFrame 0x81 0x00 0x46 (payload (.pdcap caps)) = .ok bs) ↔ caps.length ≤ 21842)) ∧
  (∀ caps : List Capability, codeOf (.pdcap caps) = 0x46 ∧ dirOf (.pdcap caps) = true) ∧
  regDecode 0x46 [0x04, 0x01, 0x01, 0x05, 0x01, 0x01] = some (.pdcap [⟨4, 1, 1⟩, ⟨5, 1, 1⟩]) ∧
  regDecode 0x46 [0x04, 0x01, 0x01, 0x05, 0x01, 0x01, 0x09] = some (.pdcap [⟨4, 1, 1⟩, ⟨5, 1, 1⟩]) ∧
  decode [0x53, 0x81, 0x0D, 0x00, 0x00, 0x46, 0x04, 0x01, 0x01, 0x05, 0x01, 0x01, 0xCC] =
    .ok (.pdcap 1 [⟨4, 1, 1⟩, ⟨5, 1, 1⟩])

/-- 41_messages.md section 3, RAW (the spec's decision D11 relates `bit_count` to nothing): little-endian `bit_count`, `bits` the
remaining bytes, too short refused. -/
def Obligations.RawPayloadLittleEndianCount : Prop :=
  (∀ d : List Byte, d.length < 4 → regDecode 0x50 d = none) ∧
  ∀ (reader format lo hi : Byte) (bits : List Byte),
    ∃ p : RawFields,
      regDecode 0x50 ([reader, format, lo, hi] ++ bits) = some (.raw p) ∧
      p.reader = reader ∧ p.formatCode = format ∧ p.bitCount.toNat = lo.toNat + 256 * hi.toNat ∧ p.bits = bits ∧
      payload (.raw p) = [reader, format, lo, hi] ++ bits

/-- R103: LSTATR's two bytes, too short refused, surplus ignored, and the worked example. -/
def Obligations.LstatrPayloadTwoBytes : Prop :=
  (∀ p : LstatrFields, codeOf (.lstatr p) = 0x48 ∧ dirOf (.lstatr p) = true ∧ payload (.lstatr p) = [p.tamperStatus, p.powerStatus]) ∧
  (∀ d : List Byte, d.length < 2 → regDecode 0x48 d = none) ∧
  (∀ (t p : Byte) (rest : List Byte), regDecode 0x48 (t :: p :: rest) = some (.lstatr ⟨t, p⟩)) ∧
  encodeFrame 0x81 0x00 (regEncode (.lstatr ⟨0, 0⟩)).1 (regEncode (.lstatr ⟨0, 0⟩)).2 =
    .ok [0x53, 0x81, 0x09, 0x00, 0x00, 0x48, 0x00, 0x00, 0xDB]

/- ## The instruction encoding -/

/-- 40_frame_codec.md section 5 and 41_messages.md section 4 together: decode of encode gives every well-formed instruction back, for
every direction bit and every CTRL byte a valid frame may have, and the frame carries both. -/
def Obligations.InstructionRoundTrip : Prop :=
  ∀ (i : Instr) (h : Header), i.wellFormed = true → h.ctrl &&& 0x06 = 0 →
    ∃ bs, encode h i = .ok bs ∧ decode bs = .ok i ∧ (decodeFrame bs).ctrl = h.ctrl ∧
      (decodeFrame bs).addr.toNat = (if h.dir then 128 else 0) + i.addr.toNat

/-- Words written out from 30_encoding.md's layout and 95_test_vectors.md B7, B8 decode to the instruction they stand for. -/
def Obligations.WordsDecodeAsTheSpecSpellsThem : Prop :=
  decode [0x53, 0x81, 0x07, 0x00, 0x00, 0x40, 0xE5] = .ok (.ack 1) ∧
  decode [0x53, 0x81, 0x13, 0x00, 0x00, 0x45, 0x12, 0x34, 0x56, 0x01, 0x02, 0xDE, 0xAD, 0xBE, 0xEF, 0x31, 0x2E, 0x30, 0x6E] =
    .ok (.pdid 1 ⟨0x123456, 1, 2, 0xDEADBEEF, [0x31, 0x2E, 0x30]⟩) ∧
  decode [0x53, 0x81, 0x0F, 0x00, 0x00, 0x50, 0x00, 0x01, 0x1A, 0x00, 0xA5, 0x5A, 0xC3, 0x40, 0xB0] =
    .ok (.raw 1 ⟨0, 1, 26, [0xA5, 0x5A, 0xC3, 0x40]⟩) ∧
  decode [0x53, 0x81, 0x09, 0x00, 0x00, 0x48, 0x01, 0x00, 0xDA] = .ok (.lstatr 1 ⟨1, 0⟩) ∧
  decode [0x53, 0x85, 0x07, 0x00, 0x00, 0x60, 0xC1] = .ok (.poll 5) ∧
  decode [0x53, 0x01, 0x07, 0x00, 0x00, 0x63, 0x42] = .error .unknownCode ∧
  decode [0x53, 0x01, 0x07, 0x00, 0x04, 0x60, 0x41] = .error .unsupportedMode

/- ## The transport and `read_from_stream` -/

/-- R32: `RxRead`. -/
def Obligations.RxReadTakesTheHead : Prop :=
  ∀ (n : Nat) (s : State),
    (rxRead n s).1 = s.rx.take (min n s.rx.length) ∧ (rxRead n s).1.length = min n s.rx.length ∧
    (rxRead n s).2 = { s with rx := s.rx.drop (min n s.rx.length) } ∧
    (rxRead n s).1 ++ (rxRead n s).2.rx = s.rx ∧ rxRead 0 s = ([], s)

/-- R78: every case of `read_from_stream`, with what it consumes, and the worked example. The cases of a short header and a short
body stand in R78's own procedure; the spec marks their reason as its decision (40_frame_codec.md section 4, the rule on short reads). -/
def Obligations.StreamReadFollowsTheProcedure : Prop :=
  (∀ s : State, s.rx = [] → readFromStream s = (none, s)) ∧
  (∀ (s : State) (b : Byte) (r : List Byte), s.rx = b :: r → b ≠ 0x53 → readFromStream s = (none, { s with rx := r })) ∧
  (∀ (s : State) (r : List Byte), s.rx = 0x53 :: r → r.length < 3 → readFromStream s = (none, { s with rx := [] })) ∧
  (∀ (s : State) (a l h : Byte) (r : List Byte), s.rx = 0x53 :: a :: l :: h :: r → l.toNat + 256 * h.toNat < 6 →
    readFromStream s = (none, { s with rx := r })) ∧
  (∀ (s : State) (a l h : Byte) (r : List Byte) (n : Nat), s.rx = 0x53 :: a :: l :: h :: r →
    l.toNat + 256 * h.toNat = n + 4 → 2 ≤ n →
    readFromStream s = (some (decodeFrame (0x53 :: a :: l :: h :: r.take n)), { s with rx := r.drop n })) ∧
  (∀ s : State, s.rx = [0x00, 0x53, 0x01, 0x07, 0x00, 0x00, 0x60, 0x45] →
    readFromStream s = (none, { s with rx := [0x53, 0x01, 0x07, 0x00, 0x00, 0x60, 0x45] }) ∧
    readFromStream (readFromStream s).2 =
      (some ⟨0x53, 0x01, 7, 0x00, 0x60, [], 0x45, true⟩, { s with rx := [] }))

/- ## Sessions and the write path -/

/-- 42_session.md section 1 (`get_or_create`): an absent entry is made Uninitialized with an empty queue, a present one stays, and
no other entry changes. -/
def Obligations.GetOrCreateMakesAFreshSession : Prop :=
  ∀ (a : Addr) (s : State),
    (s.session a = none → (getOrCreate a s).session a = some { addr := a, init := false, q := [] } ∧
      (∀ b, b ≠ a → (getOrCreate a s).session b = s.session b) ∧ { getOrCreate a s with sess := s.sess } = s) ∧
    (∀ se, s.session a = some se → getOrCreate a s = s)

/-- 42_session.md section 1 (`require`) and 60_exceptions.md section 1 (E10; for `enqueue` the spec's decision D16): `send` and
`enqueue` to an address without a session answer SessionNotFound and change nothing, no entry becomes present, and a present
entry never answers so. That the error reaches the caller, a handler or the host, is said in the model's own fields `returns`
(log 6) and `agenda` (log 5). -/
def Obligations.AbsentSessionIsAnExplicitError : Prop :=
  (∀ (a : Addr) (m : Message) (s : State), s.session a = none →
    send a m s = (.sessionNotFound a, s) ∧ enqueue a m s = (.sessionNotFound a, s)) ∧
  (∀ (a : Addr) (m : Message) (s : State) (se : Session), s.session a = some se →
    (send a m s).1 ≠ .sessionNotFound a ∧ (enqueue a m s).1 ≠ .sessionNotFound a) ∧
  (∀ (k : Caller) (a : Addr) (m : Message) (s : State), s.session a = none →
    perform k s (.send a m) = { s with returns := s.returns ++ [⟨k, .sessionNotFound a⟩] } ∧
    perform k s (.enqueue a m) = { s with returns := s.returns ++ [⟨k, .sessionNotFound a⟩] }) ∧
  (∀ (a : Addr) (m : Message) (s : State) (es : List Event), s.session a = none →
    (s.agenda = .send a m :: es ∨ s.agenda = .enqueue a m :: es) →
    step s = .next { s with agenda := es, returns := s.returns ++ [⟨.host, .sessionNotFound a⟩] })

/-- R122: the ADDR byte of an outbound frame, with its worked example. -/
def Obligations.OutboundAddressByte : Prop :=
  (∀ (se : Session) (m : Message),
    (outAddr se m).toNat =
      (match m with
        | .ack => if se.init then 128 else 0
        | .pdid _ => 128
        | .pdcap _ => 128
        | .raw _ => 128
        | .lstatr _ => 128
        | .poll => 0
        | .id => 0
        | .cap => 0
        | .lstat => 0
        | .led _ => 0
        | .buz => 0) + se.addr.toNat) ∧
  (∀ (a : Addr) (m : Message) (s : State) (se : Session), s.session a = some se → (payload m).length ≤ 0xFFF8 →
    (send a m s).2.tx = s.tx ++ wireFrame (outAddr se m) s.lastCtrl (codeOf m) (payload m)) ∧
  (∀ q, outAddr ⟨1, false, q⟩ .ack = 0x01 ∧ outAddr ⟨1, true, q⟩ .ack = 0x81) ∧
  (∀ init q p, outAddr ⟨1, init, q⟩ (.pdid p) = 0x81)

/-- R135: `send`: its three outcomes, the frame written, what it leaves alone, that the frame is valid, that `LAST_CTRL` has been
written wherever the invariant holds, and the worked examples. -/
def Obligations.SendWritesOneValidFrame : Prop :=
  (∀ (a : Addr) (m : Message) (s : State), s.session a = none → send a m s = (.sessionNotFound a, s)) ∧
  (∀ (a : Addr) (m : Message) (s : State) (se : Session), s.session a = some se → 0xFFF8 < (payload m).length →
    send a m s = (.encodeOverflow, s)) ∧
  (∀ (a : Addr) (m : Message) (s : State) (se : Session), s.session a = some se → (payload m).length ≤ 0xFFF8 →
    send a m s = (.ok, { s with tx := s.tx ++ messageFrame se s.lastCtrl m }) ∧
    (Invariant s → (decodeFrame (messageFrame se s.lastCtrl m)).isValid = true ∧ s.ctrlWritten = true)) ∧
  (∀ (s : State) (q : List Message), s.session 1 = some ⟨1, true, q⟩ → s.lastCtrl = 0x00 →
    send 1 (.lstatr ⟨1, 0⟩) s =
      (.ok, { s with tx := s.tx ++ [0x53, 0x81, 0x09, 0x00, 0x00, 0x48, 0x01, 0x00, 0xDA] }))

/-- 42_session.md section 4 (`enqueue`; the spec's decision D16 refuses an absent session): the Message goes to the tail, and only
that session's queue changes. -/
def Obligations.EnqueueAppendsAtTheTail : Prop :=
  ∀ (a : Addr) (m : Message) (s : State) (se : Session), s.session a = some se →
    (enqueue a m s).1 = .ok ∧
    (enqueue a m s).2.session a = some { se with q := se.q ++ [m] } ∧
    (∀ b, b ≠ a → (enqueue a m s).2.session b = s.session b) ∧
    { (enqueue a m s).2 with sess := s.sess } = s

/- ## What each received message does -/

/-- R133 (its order is also 42_session.md section 2's, where the spec marks it as its decision): `Dispatch`, after
`get_or_create`: the hardwired transition of ID and CAP, then the handler of the code, and its worked example.What a handler's
run is, ActionErrorsDoNotStopTheRest says. -/
def Obligations.DispatchTransitionsThenCallsTheHandler : Prop :=
  (∀ (a : Addr) (m : Message) (s s1 : State),
    s1 = (match m with
      | .id => setInit a false (getOrCreate a s)
      | .cap => setInit a true (getOrCreate a s)
      | _ => getOrCreate a s) →
    exec (Instr.ofMessage a m) s =
      .next (match s1.handler (codeOf m) with
        | none => s1
        | some .pollDefault => pollDefault a s1
        | some h => runHandler h a (codeOf m) m s1)) ∧
  (∀ (s : State) (q : List Message) (init : Bool), s.session 1 = some ⟨1, init, q⟩ → s.handler 0x62 = none →
    exec (.cap 1) s = .next (s.setSession 1 ⟨1, true, q⟩))

/-- 42_session.md section 3, POLL with the reset handler (the spec's decision D13 makes it replaceable): an empty queue is answered
by an ACK; the head of a queue leaves it and is sent; an oversized head leaves it and nothing is written. -/
def Obligations.PollDrainsOneMessageOrAcks : Prop :=
  (∀ (a : Addr) (s : State), s.handler 0x60 = some .pollDefault → (sessionOr s a).q = [] →
    exec (.poll a) s =
      .next { s.setSession a (sessionOr s a) with tx := s.tx ++ messageFrame (sessionOr s a) s.lastCtrl .ack }) ∧
  (∀ (a : Addr) (s : State) (se : Session) (m : Message) (rest : List Message), s.handler 0x60 = some .pollDefault →
    s.session a = some se → se.q = m :: rest → (payload m).length ≤ 0xFFF8 →
    exec (.poll a) s =
      .next { s.setSession a { se with q := rest } with tx := s.tx ++ messageFrame se s.lastCtrl m }) ∧
  (∀ (a : Addr) (s : State) (se : Session) (m : Message) (rest : List Message), s.handler 0x60 = some .pollDefault →
    s.session a = some se → se.q = m :: rest → 0xFFF8 < (payload m).length →
    exec (.poll a) s = .next (s.setSession a { se with q := rest }))

/-- R114: ID received: the session ends Uninitialized with its queue untouched, then the handler runs; with none, that is all; a
following POLL of an empty queue is answered with direction bit 0; with the worked example. -/
def Obligations.IdReceivedUninitializes : Prop :=
  (∀ (a : Addr) (s : State),
    exec (.id a) s = .next (callHandler a .id (s.setSession a { sessionOr s a with init := false }))) ∧
  (∀ (a : Addr) (s : State), s.handler 0x61 = none →
    exec (.id a) s = .next (s.setSession a { sessionOr s a with init := false })) ∧
  (∀ (a : Addr) (s : State), s.handler 0x61 = none → s.handler 0x60 = some .pollDefault → s.session a = none ∨
      s.session a = some ⟨a, true, []⟩ →
    ∃ t u, exec (.id a) s = .next t ∧ t.tx = s.tx ∧ exec (.poll a) t = .next u ∧
      u.tx = s.tx ++ wireFrame (a.setWidth 8) s.lastCtrl 0x40 []) ∧
  (∀ (s : State) (q : List Message), s.rx = [0x53, 0x01, 0x07, 0x00, 0x00, 0x61, 0x44] → s.session 1 = some ⟨1, true, q⟩ →
    s.handler 0x61 = none →
    iterate s = .next { s.setSession 1 ⟨1, false, q⟩ with rx := [], lastCtrl := 0x00, ctrlWritten := true })

/-- R115: CAP received: the session ends Initialized with its queue untouched, a fresh one too, then the handler runs; with none,
that is all; a following POLL of an empty queue is answered with direction bit 1; with the worked example. -/
def Obligations.CapReceivedInitializes : Prop :=
  (∀ (a : Addr) (s : State),
    exec (.cap a) s = .next (callHandler a .cap (s.setSession a { sessionOr s a with init := true }))) ∧
  (∀ (a : Addr) (s : State), s.handler 0x62 = none →
    exec (.cap a) s = .next (s.setSession a { sessionOr s a with init := true })) ∧
  (∀ (a : Addr) (s : State), s.handler 0x62 = none → s.handler 0x60 = some .pollDefault → s.session a = none →
    ∃ t u, exec (.cap a) s = .next t ∧ t.session a = some ⟨a, true, []⟩ ∧ exec (.poll a) t = .next u ∧
      u.tx = s.tx ++ wireFrame (0x80 ||| a.setWidth 8) s.lastCtrl 0x40 []) ∧
  (∃ t u, iterate { State.reset with rx := [0x53, 0x01, 0x07, 0x00, 0x00, 0x62, 0x43] } = .next t ∧
    t.session 1 = some ⟨1, true, []⟩ ∧
    iterate { t with rx := [0x53, 0x01, 0x07, 0x00, 0x00, 0x60, 0x45] } = .next u ∧
    u.tx = [0x53, 0x81, 0x07, 0x00, 0x00, 0x40, 0xE5])

/-- R116, R117, R118: LSTAT, LED, BUZ received: the session exists and is otherwise as it was, then the handler runs; with none,
nothing else changes; an LED payload below 14 bytes never comes so far; with the worked examples. -/
def Obligations.LstatLedBuzReceived : Prop :=
  (∀ (a : Addr) (p : LedFields) (s : State),
    exec (.lstat a) s = .next (callHandler a .lstat (s.setSession a (sessionOr s a))) ∧
    exec (.led a p) s = .next (callHandler a (.led p) (s.setSession a (sessionOr s a))) ∧
    exec (.buz a) s = .next (callHandler a .buz (s.setSession a (sessionOr s a))) ∧
    (s.handler 0x64 = none → exec (.lstat a) s = .next (s.setSession a (sessionOr s a))) ∧
    (s.handler 0x69 = none → exec (.led a p) s = .next (s.setSession a (sessionOr s a))) ∧
    (s.handler 0x6A = none → exec (.buz a) s = .next (s.setSession a (sessionOr s a))) ∧
    (∀ se, s.session a = some se → s.setSession a (sessionOr s a) = s)) ∧
  (∀ d : List Byte, d.length < 14 → regDecode 0x69 d = none) ∧
  (∀ s : State,
    (s.handler 0x64 = none ∧ s.rx = [0x53, 0x01, 0x07, 0x00, 0x00, 0x64, 0x41]) ∨
    (s.handler 0x69 = none ∧ s.rx =
      [0x53, 0x01, 0x15, 0x00, 0x00, 0x69, 0x00, 0x00, 0x02, 0x05, 0x05, 0x01, 0x00, 0x1E, 0x00, 0x01, 0x01, 0x00, 0x02, 0x00,
        0xFF]) ∨
    (s.handler 0x6A = none ∧ s.rx = [0x53, 0x01, 0x0C, 0x00, 0x00, 0x6A, 0x00, 0x02, 0x01, 0x01, 0x01, 0x31]) →
    iterate s = .next { s.setSession 1 (sessionOr s 1) with rx := [], lastCtrl := 0x00, ctrlWritten := true })

/-- 42_session.md section 3, reply variants received (the spec's decision D28): dispatched like commands, with no transition. -/
def Obligations.ReplyVariantsReceived : Prop :=
  ∀ (a : Addr) (pd : PdidFields) (caps : List Capability) (raw : RawFields) (ls : LstatrFields) (s : State),
    exec (.ack a) s = .next (callHandler a .ack (s.setSession a (sessionOr s a))) ∧
    exec (.pdid a pd) s = .next (callHandler a (.pdid pd) (s.setSession a (sessionOr s a))) ∧
    exec (.pdcap a caps) s = .next (callHandler a (.pdcap caps) (s.setSession a (sessionOr s a))) ∧
    exec (.raw a raw) s = .next (callHandler a (.raw raw) (s.setSession a (sessionOr s a))) ∧
    exec (.lstatr a ls) s = .next (callHandler a (.lstatr ls) (s.setSession a (sessionOr s a))) ∧
    (s.handler 0x40 = none → exec (.ack a) s = .next (s.setSession a (sessionOr s a))) ∧
    (s.handler 0x45 = none → exec (.pdid a pd) s = .next (s.setSession a (sessionOr s a))) ∧
    (s.handler 0x46 = none → exec (.pdcap a caps) s = .next (s.setSession a (sessionOr s a))) ∧
    (s.handler 0x50 = none → exec (.raw a raw) s = .next (s.setSession a (sessionOr s a))) ∧
    (s.handler 0x48 = none → exec (.lstatr a ls) s = .next (s.setSession a (sessionOr s a)))

/-- 43_engine.md section 2 (no handler, the spec's decision D15): the hardwired transition is the whole effect, for every message. -/
def Obligations.NoHandlerMeansNoReply : Prop :=
  ∀ (i : Instr) (s : State), s.handler (codeOf i.message) = none →
    ∃ t, exec i s = .next t ∧
      t.session i.addr =
        some { sessionOr s i.addr with init := initAfter i.message (sessionOr s i.addr).init } ∧
      (∀ b, b ≠ i.addr → t.session b = s.session b) ∧ { t with sess := s.sess } = s

/-- 43_engine.md section 2, for every content of the handler table and every host: receiving a message completes, leaves RX,
`LAST_CTRL` and the agenda alone, only appends to TX, makes the session of its address, and gives it, and no other session, the
`init` of the hardwired transition; HND changes only where a host function re-registers (log 4). The agenda and the answers are
the model's own fields (logs 5, 6). -/
def Obligations.ReceivingFrameForEveryHandler : Prop :=
  ∀ (i : Instr) (s : State), ∃ t, exec i s = .next t ∧
    t.rx = s.rx ∧ t.lastCtrl = s.lastCtrl ∧ t.ctrlWritten = s.ctrlWritten ∧ t.agenda = s.agenda ∧
    s.tx <+: t.tx ∧ s.returns <+: t.returns ∧
    (∃ se, t.session i.addr = some se ∧ se.addr = (sessionOr s i.addr).addr ∧
      se.init = initAfter i.message (sessionOr s i.addr).init) ∧
    (∀ b, b ≠ i.addr →
      (t.session b).map (fun se => (se.addr, se.init)) = (s.session b).map (fun se => (se.addr, se.init))) ∧
    ((∀ n, s.handler (codeOf i.message) ≠ some (.host n)) → t.hnd = s.hnd)

/-- 42_session.md section 4, the queue (an inference the spec marks): a handler other than `PollDefault` takes nothing out of any
queue; it can only append. -/
def Obligations.OnlyPollDefaultTakesFromAQueue : Prop :=
  ∀ (i : Instr) (s : State), s.handler (codeOf i.message) ≠ some .pollDefault →
    ∃ t, exec i s = .next t ∧
      ∀ (b : Addr) (se : Session), s.session b = some se → ∃ se', t.session b = some se' ∧ se.q <+: se'.q

/-- 42_session.md section 4, first in first out (an inference the spec marks): as many POLLs as there are Messages that fit send
them all, in the order they were queued, one frame each, and leave the queue empty. -/
def Obligations.PollsSendTheQueueInOrder : Prop :=
  ∀ (a : Addr) (s : State) (se : Session), s.handler 0x60 = some .pollDefault → s.session a = some se →
    (∀ m ∈ se.q, (payload m).length ≤ 0xFFF8) →
    ∃ t, repeatExec (.poll a) se.q.length s = .next t ∧
      t.session a = some { se with q := [] } ∧
      t.tx = s.tx ++ (se.q.map (fun m => messageFrame se s.lastCtrl m)).flatten

/-- 43_engine.md section 2, `RunHandler` (the spec's decision D22): a host function is applied to the view `(addr, init, q)` of the
session after the hardwired transition and to the Message, a handler given as data yields its list (log 3); the actions are
performed in list order, each as `send`, `enqueue` or a registration (log 4), with its answer to the handler (log 6); an action
that ends in an error has no other effect than the answer, and the remaining actions are still performed. -/
def Obligations.ActionErrorsDoNotStopTheRest : Prop :=
  (∀ (i : Instr) (s : State) (n : Nat), s.handler (codeOf i.message) = some (.host n) →
    exec i s =
      .next (runActions (.handler (codeOf i.message))
        (Config.hostHandler n (sessionOr s i.addr).addr (initAfter i.message (sessionOr s i.addr).init)
          (sessionOr s i.addr).q i.message)
        (s.setSession i.addr { sessionOr s i.addr with init := initAfter i.message (sessionOr s i.addr).init }))) ∧
  (∀ (i : Instr) (s : State) (given : List GivenAction), s.handler (codeOf i.message) = some (.given given) →
    exec i s =
      .next (runActions (.handler (codeOf i.message)) (given.map (toAction (sessionOr s i.addr).addr))
        (s.setSession i.addr { sessionOr s i.addr with init := initAfter i.message (sessionOr s i.addr).init }))) ∧
  (∀ (own a : Addr) (m : Message),
    toAction own (.send .own m) = .send own m ∧ toAction own (.send (.device a) m) = .send a m ∧
    toAction own (.enqueue .own m) = .enqueue own m ∧ toAction own (.enqueue (.device a) m) = .enqueue a m) ∧
  (∀ (k : Caller) (a : Addr) (m : Message) (c : Byte) (h : Handler) (acts : List Action) (s : State),
    runActions k [] s = s ∧
    runActions k (.send a m :: acts) s =
      runActions k acts { (send a m s).2 with returns := s.returns ++ [⟨k, (send a m s).1⟩] } ∧
    runActions k (.enqueue a m :: acts) s =
      runActions k acts { (enqueue a m s).2 with returns := s.returns ++ [⟨k, (enqueue a m s).1⟩] } ∧
    runActions k (.register c h :: acts) s = runActions k acts (s.setHandler c h)) ∧
  ∀ (k : Caller) (a : Addr) (m : Message) (acts : List Action) (s : State),
    (s.session a = none →
      runActions k (.send a m :: acts) s =
        runActions k acts { s with returns := s.returns ++ [⟨k, .sessionNotFound a⟩] } ∧
      runActions k (.enqueue a m :: acts) s =
        runActions k acts { s with returns := s.returns ++ [⟨k, .sessionNotFound a⟩] }) ∧
    (∀ se, s.session a = some se → 0xFFF8 < (payload m).length →
      runActions k (.send a m :: acts) s =
        runActions k acts { s with returns := s.returns ++ [⟨k, .encodeOverflow⟩] })

/-- 43_engine.md sections 2 and 4, a handler given as data (the model's form of a handler, log 3): an LSTAT answered with LSTATR.
That the answer goes to the handler is said in the model's own field `returns` (log 6). -/
def Obligations.GivenHandlerRepliesToLstat : Prop :=
  ∀ (a : Addr) (p : LstatrFields) (s : State), s.handler 0x64 = some (.given [.send .own (.lstatr p)]) →
    (sessionOr s a).addr = a →
    exec (.lstat a) s =
      .next { s.setSession a (sessionOr s a) with
        tx := s.tx ++ messageFrame (sessionOr s a) s.lastCtrl (.lstatr p)
        returns := s.returns ++ [⟨.handler 0x64, .ok⟩] }

/-- 42_session.md section 2 (the spec's decision D14): the transition comes before the handler, so every ACK that a CAP handler sends
to the session of the message has direction bit 1, and every ACK an ID handler sends to it has direction bit 0. The handler is a
host function or one given as data (the model's forms, log 3), with any actions before and after the ACK, or `PollDefault` with
an empty queue or an ACK at its head; the answer to a handler is the model's own field `returns` (log 6). -/
def Obligations.TransitionPrecedesTheHandlersReply : Prop :=
  (∀ (a : Addr) (s : State) (h : Handler) (before after : List Action), s.handler 0x62 = some h → (sessionOr s a).addr = a →
    handlerActions h { sessionOr s a with init := true } .cap = before ++ .send a .ack :: after →
    ∃ u, u = runActions (.handler 0x62) before (s.setSession a { sessionOr s a with init := true }) ∧
      exec (.cap a) s =
        .next (runActions (.handler 0x62) after { u with
          tx := u.tx ++ wireFrame (0x80 ||| a.setWidth 8) s.lastCtrl 0x40 []
          returns := u.returns ++ [⟨.handler 0x62, .ok⟩] })) ∧
  (∀ (a : Addr) (s : State) (h : Handler) (before after : List Action), s.handler 0x61 = some h → (sessionOr s a).addr = a →
    handlerActions h { sessionOr s a with init := false } .id = before ++ .send a .ack :: after →
    ∃ u, u = runActions (.handler 0x61) before (s.setSession a { sessionOr s a with init := false }) ∧
      exec (.id a) s =
        .next (runActions (.handler 0x61) after { u with
          tx := u.tx ++ wireFrame (a.setWidth 8) s.lastCtrl 0x40 []
          returns := u.returns ++ [⟨.handler 0x61, .ok⟩] })) ∧
  (∀ (a : Addr) (s : State), (sessionOr s a).addr = a →
    (sessionOr s a).q = [] ∨ (∃ rest, (sessionOr s a).q = .ack :: rest) →
    (s.handler 0x62 = some .pollDefault →
      ∃ t, exec (.cap a) s = .next t ∧ t.tx = s.tx ++ wireFrame (0x80 ||| a.setWidth 8) s.lastCtrl 0x40 []) ∧
    (s.handler 0x61 = some .pollDefault →
      ∃ t, exec (.id a) s = .next t ∧ t.tx = s.tx ++ wireFrame (a.setWidth 8) s.lastCtrl 0x40 []))

/-- 10_state.md section 8 and 42_session.md section 2: what a message does to its own session and writes to TX depends on that
session, `LAST_CTRL` and its own handler entry alone, where the entry is empty or `PollDefault`; no other session is touched. -/
def Obligations.OtherSessionsDoNotInterfere : Prop :=
  ∀ (i : Instr) (s1 s2 : State), s1.session i.addr = s2.session i.addr → s1.lastCtrl = s2.lastCtrl →
    s1.handler (codeOf i.message) = s2.handler (codeOf i.message) →
    s1.handler (codeOf i.message) = none ∨ s1.handler (codeOf i.message) = some .pollDefault →
    ∃ t1 t2 bs, exec i s1 = .next t1 ∧ exec i s2 = .next t2 ∧ t1.tx = s1.tx ++ bs ∧ t2.tx = s2.tx ++ bs ∧
      t1.session i.addr = t2.session i.addr ∧
      ∀ b, b ≠ i.addr → t1.session b = s1.session b ∧ t2.session b = s2.session b

/- ## The engine's step -/

/-- R130: the loop body, over `read_from_stream`, the registry and the execution of the message, and the worked example. The latch of
CTRL and the mask of ADDR stand in R130's own procedure; the spec marks their reasons as its decisions elsewhere. -/
def Obligations.IterateFollowsTheLoopBody : Prop :=
  (∀ s : State, s.rx = [] → iterate s = .next s) ∧
  (∀ s s1 : State, s.rx ≠ [] → readFromStream s = (none, s1) → iterate s = .next s1) ∧
  (∀ (s s1 : State) (f : Frame), s.rx ≠ [] → readFromStream s = (some f, s1) → f.isValid = false → iterate s = .next s1) ∧
  (∀ (s s1 : State) (f : Frame), s.rx ≠ [] → readFromStream s = (some f, s1) → f.isValid = true →
    regDecode f.cmd f.data = none → iterate s = .next { s1 with lastCtrl := f.ctrl, ctrlWritten := true }) ∧
  (∀ (s s1 : State) (f : Frame) (m : Message), s.rx ≠ [] → readFromStream s = (some f, s1) → f.isValid = true →
    regDecode f.cmd f.data = some m →
    iterate s = exec (Instr.ofMessage (deviceAddress f.addr) m) { s1 with lastCtrl := f.ctrl, ctrlWritten := true }) ∧
  (∀ b : Byte, (deviceAddress b).toNat = b.toNat % 128) ∧
  iterate { State.reset with rx := [0x53, 0x01, 0x07, 0x00, 0x00, 0x60, 0x45] } =
    .next { State.reset.setSession 1 ⟨1, false, []⟩ with
      lastCtrl := 0x00, ctrlWritten := true, tx := [0x53, 0x01, 0x07, 0x00, 0x00, 0x40, 0x65] }

/-- A step runs the decoded instruction: where the bytes at the head of RX decode to `i`, the step is `exec i` of the state with
those bytes gone and the frame's CTRL byte latched; the same where the agenda, the
model's own field (log 5), says `iterate` (43_engine.md section 1). -/
def Obligations.StepRunsTheDecodedInstruction : Prop :=
  ∀ (s : State) (bs rest : List Byte) (i : Instr), s.rx = bs ++ rest → decode bs = .ok i →
    (s.agenda = [] →
      step s = exec i { s with rx := rest, lastCtrl := (decodeFrame bs).ctrl, ctrlWritten := true }) ∧
    (∀ es, s.agenda = .iterate :: es →
      step s = exec i { s with agenda := es, rx := rest, lastCtrl := (decodeFrame bs).ctrl, ctrlWritten := true })

/-- R151: a framing error drops the bytes it consumed and changes nothing else: a head byte that is no SOM, a LEN below 6, and a
Frame that is invalid, whole or cut short (start marker, mode bit, checksum, length). -/
def Obligations.FramingErrorIsDropped : Prop :=
  (∀ (s : State) (b : Byte) (r : List Byte), s.agenda = [] → s.rx = b :: r → b ≠ 0x53 → step s = .next { s with rx := r }) ∧
  (∀ (s : State) (a l h : Byte) (r : List Byte), s.agenda = [] → s.rx = 0x53 :: a :: l :: h :: r →
    l.toNat + 256 * h.toNat < 6 → step s = .next { s with rx := r }) ∧
  (∀ (s : State) (a l h : Byte) (r : List Byte) (n : Nat), s.agenda = [] → s.rx = 0x53 :: a :: l :: h :: r →
    l.toNat + 256 * h.toNat = n + 4 → 2 ≤ n →
    (decodeFrame (0x53 :: a :: l :: h :: r.take n)).isValid = false → step s = .next { s with rx := r.drop n })

/-- R152: a valid frame with an unregistered code is dropped: its bytes are gone and its CTRL byte is latched, and nothing else
changes. -/
def Obligations.UnknownCodeIsDropped : Prop :=
  ∀ (s : State) (b rest : List Byte), s.agenda = [] → s.rx = b ++ rest → (decodeFrame b).isValid = true →
    (decodeFrame b).cmd ∉ registeredCodes →
    decode b = .error .unknownCode ∧
    step s = .next { s with rx := rest, lastCtrl := (decodeFrame b).ctrl, ctrlWritten := true }

/-- 60_exceptions.md section 1, malformed payload (the spec's decision D9): the effects are those of an unknown code. -/
def Obligations.MalformedPayloadIsDropped : Prop :=
  ∀ (s : State) (b rest : List Byte), s.agenda = [] → s.rx = b ++ rest → (decodeFrame b).isValid = true →
    ((decodeFrame b).cmd = 0x69 ∧ (decodeFrame b).data.length < 14) ∨
      ((decodeFrame b).cmd = 0x45 ∧ (decodeFrame b).data.length < 9) ∨
      ((decodeFrame b).cmd = 0x50 ∧ (decodeFrame b).data.length < 4) ∨
      ((decodeFrame b).cmd = 0x48 ∧ (decodeFrame b).data.length < 2) →
    decode b = .error .malformedPayload ∧
    step s = .next { s with rx := rest, lastCtrl := (decodeFrame b).ctrl, ctrlWritten := true }

/-- 40_frame_codec.md section 4, short reads (the spec's decision D5): a frame of which only a part has arrived is lost, whole, and
nothing else changes. -/
def Obligations.SplitFrameIsLost : Prop :=
  (∀ (s : State) (r : List Byte), s.agenda = [] → s.rx = 0x53 :: r → r.length < 3 → step s = .next { s with rx := [] }) ∧
  (∀ (s : State) (a l h : Byte) (r : List Byte), s.agenda = [] → s.rx = 0x53 :: a :: l :: h :: r →
    6 ≤ l.toNat + 256 * h.toNat → r.length + 4 < l.toNat + 256 * h.toNat → step s = .next { s with rx := [] })

/-- 43_engine.md section 1, the idle iteration (the spec's decision D29), and 20_memory.md section 2, 43_engine.md section 4: the steps of
the environment and of the host. The agenda they stand in (log 5) and the answers (log 6) are the model's own fields; a removal of
more bytes than TX holds removes all of them (log 26), where the spec speaks of a prefix of TX. -/
def Obligations.IdleHostAndEnvironmentSteps : Prop :=
  (∀ s : State, s.agenda = [] → s.rx = [] → step s = .next s) ∧
  (∀ (s : State) (bs : List Byte) (es : List Event), s.agenda = .rxAppend bs :: es →
    step s = .next { s with agenda := es, rx := s.rx ++ bs }) ∧
  (∀ (s : State) (n : Nat) (es : List Event), s.agenda = .txTake n :: es →
    step s = .next { s with agenda := es, tx := s.tx.drop n }) ∧
  (∀ (s : State) (a : Addr) (m : Message) (es : List Event) (se : Session), s.agenda = .send a m :: es →
    s.session a = some se → (payload m).length ≤ 0xFFF8 →
    step s = .next { s with
      agenda := es, tx := s.tx ++ messageFrame se s.lastCtrl m, returns := s.returns ++ [⟨.host, .ok⟩] }) ∧
  (∀ (s : State) (a : Addr) (m : Message) (es : List Event) (se : Session), s.agenda = .enqueue a m :: es →
    s.session a = some se →
    step s = .next { s.setSession a { se with q := se.q ++ [m] } with
      agenda := es, returns := s.returns ++ [⟨.host, .ok⟩] })

/-- 43_engine.md section 4, `register_handler` (the spec's decision D23): the entry is replaced, whatever it held, the other entries
and everything else stay. The agenda the call stands in is the model's own field (log 5). -/
def Obligations.RegisterHandlerReplacesTheEntry : Prop :=
  ∀ (s : State) (c : Byte) (h : Handler) (es : List Event), s.agenda = .register c h :: es →
    ∃ t, step s = .next t ∧ t.handler c = some h ∧ (∀ d, d ≠ c → t.handler d = s.handler d) ∧
      { t with hnd := s.hnd, agenda := s.agenda } = s

/-- 60_exceptions.md, preamble: no step of any state stops the machine. -/
def Obligations.NoStepStopsTheMachine : Prop :=
  ∀ s : State, ∃ t, step s = .next t

/-- 70_reset_and_hazards.md section 4 (an inference the spec marks): an iteration with RX not empty consumes at least one byte and at
most 65535, from the head. -/
def Obligations.IterationConsumesBytes : Prop :=
  ∀ s : State, s.rx ≠ [] → ∃ k t, 1 ≤ k ∧ k ≤ 65535 ∧ iterate s = .next t ∧ t.rx = s.rx.drop k

/-- 70_reset_and_hazards.md section 4 (an inference the spec marks): with no step of another agent pending
(the agenda, log 5, empty), a finite RX is emptied in at most as many steps as it has bytes; the state is then quiescent
(section 5, the spec's decision D30), nothing is pending, and it stays as it is however long the run goes on. -/
def Obligations.FiniteInputReachesQuiescence : Prop :=
  ∀ s : State, s.agenda = [] →
    ∃ n t, n ≤ s.rx.length ∧ Host.Core.run Sys2Proof.core n s = Host.Outcome.next t ∧ Quiescent t ∧ t.agenda = [] ∧
      ∀ k, Host.Core.run Sys2Proof.core (n + k) s = Host.Outcome.next t

/- ## Whole-machine rules -/

/-- 10_state.md sections 3 and 4: every step keeps the invariant. -/
def Obligations.StepKeepsTheInvariant : Prop :=
  ∀ s t : State, Invariant s → step s = .next t → Invariant t

/-- The invariant holds at reset. Its `ctrl_ok` there rests on the model's choice of the byte 0x00 (log 1). -/
def Obligations.ResetMeetsTheInvariant : Prop := Invariant State.reset

/-- 10_state.md section 9: the state after reset, in the values the spec gives. -/
def Obligations.ResetStateIsAsListed : Prop :=
  (∀ a : Addr, State.reset.session a = none) ∧ State.reset.ctrlWritten = false ∧
  State.reset.handler 0x60 = some .pollDefault ∧ (∀ c : Byte, c ≠ 0x60 → State.reset.handler c = none) ∧
  State.reset.rx = [] ∧ State.reset.tx = []

/-- 10_state.md section 3 and 42_session.md section 2: a session's `init` changes only in a step that executes an ID or a CAP for that
address, and then to the value that command gives. -/
def Obligations.InitIsDrivenByIdAndCapAlone : Prop :=
  ∀ (s t : State) (a : Addr) (se se' : Session), step s = .next t → s.session a = some se → t.session a = some se' →
    se'.init ≠ se.init →
    (executes s = some (.id a) ∧ se'.init = false) ∨ (executes s = some (.cap a) ∧ se'.init = true)

/-- 10_state.md section 3 and 42_session.md section 1: a session is never destroyed and keeps its `addr`, and one comes to exist only in
a step that executes a message for its address. -/
def Obligations.SessionsPersistAndComeFromFrames : Prop :=
  ∀ (s t : State) (a : Addr), step s = .next t →
    (∀ se, s.session a = some se → ∃ se', t.session a = some se' ∧ se'.addr = se.addr) ∧
    (s.session a = none → t.session a ≠ none → ∃ i, executes s = some i ∧ i.addr = a)

/-- 20_memory.md section 7 and 43_engine.md section 3: whatever the handlers, a step that is no removal by the environment leaves TX as
it was but for whole valid frames at its tail, all with the CTRL byte that `LAST_CTRL` then holds. -/
def Obligations.TxGrowsByWholeValidFrames : Prop :=
  ∀ s t : State, s.lastCtrl &&& 0x06 = 0 → step s = .next t → (∀ n es, s.agenda ≠ .txTake n :: es) →
    ∃ bs, t.tx = s.tx ++ bs ∧ WholeFrames t.lastCtrl bs

/-- 60_exceptions.md section 4: after an iteration that executes nothing, the state is the one before it but for the bytes that
`read_from_stream` consumed from RX, and, with a valid Frame that the registry refuses (E8, E9), `LAST_CTRL`, which holds that
Frame's CTRL byte. -/
def Obligations.DropsArePrecise : Prop :=
  ∀ s s0 : State, iterationStart s = some s0 → executes s = none →
    (∃ k, k ≤ 65535 ∧ (readFromStream s0).2 = { s0 with rx := s0.rx.drop k }) ∧
    match (readFromStream s0).1 with
    | none => step s = .next (readFromStream s0).2
    | some f =>
      (f.isValid = false ∧ step s = .next (readFromStream s0).2) ∨
      (f.isValid = true ∧ f.ctrl &&& 0x06 = 0 ∧ regDecode f.cmd f.data = none ∧
        step s = .next { (readFromStream s0).2 with lastCtrl := f.ctrl, ctrlWritten := true })
end

