-- ==== Sys2Proof/Laws/Bytes.lean ====
section
/-! SUPPORT. Byte order, the ADDR byte, the checksum, and lengths of payloads and frames. -/

namespace Sys2Proof.Machine

theorem le16_toNat (lo hi : Byte) : (le16 lo hi).toNat = lo.toNat + 256 * hi.toNat := by
  have hl := lo.isLt
  have hh := hi.isLt
  have e : (hi.toNat <<< 8) + lo.toNat = hi.toNat <<< 8 ||| lo.toNat := Nat.shiftLeft_add_eq_or_of_lt hl hi.toNat
  have h1 : hi.toNat % 65536 = hi.toNat := Nat.mod_eq_of_lt (by omega)
  have h2 : lo.toNat % 65536 = lo.toNat := Nat.mod_eq_of_lt (by omega)
  have h3 : hi.toNat <<< 8 % 65536 = hi.toNat <<< 8 := Nat.mod_eq_of_lt (by rw [Nat.shiftLeft_eq]; omega)
  simp only [le16, BitVec.toNat_or, BitVec.toNat_setWidth, BitVec.toNat_shiftLeft, Nat.reducePow, h1, h2, h3]
  rw [Nat.or_comm, ← e, Nat.shiftLeft_eq]
  omega

@[simp] theorem bytesLe16_length (v : BitVec 16) : (bytesLe16 v).length = 2 := rfl

theorem bytesLe16_eq (v : BitVec 16) :
    bytesLe16 v = [BitVec.ofNat 8 v.toNat, BitVec.ofNat 8 (v.toNat / 256)] := by
  simp [bytesLe16, ← BitVec.toNat_inj, Nat.shiftRight_eq_div_pow]

theorem le16_of_bytes (v : BitVec 16) :
    le16 (v.setWidth 8) ((v >>> 8).setWidth 8) = v := by
  have h := v.isLt
  apply BitVec.eq_of_toNat_eq
  rw [le16_toNat]
  simp only [BitVec.toNat_setWidth, BitVec.toNat_ushiftRight, Nat.shiftRight_eq_div_pow]
  omega

theorem bytes_of_le16 (lo hi : Byte) : bytesLe16 (le16 lo hi) = [lo, hi] := by
  have hl := lo.isLt
  have hh := hi.isLt
  rw [bytesLe16_eq, le16_toNat]
  congr 1
  · apply BitVec.eq_of_toNat_eq; simp; omega
  · congr 1; apply BitVec.eq_of_toNat_eq; simp; omega

theorem be_append (s : List Byte) (b : Byte) : be (s ++ [b]) = be s * 256 + b.toNat := by
  simp [be, List.foldl_append]

@[simp] theorem bytesBe_length (n v : Nat) : (bytesBe n v).length = n := by
  induction n generalizing v with
  | zero => rfl
  | succ n ih => simp [bytesBe, ih]

theorem be_bytesBe (n v : Nat) : be (bytesBe n v) = v % 256 ^ n := by
  induction n generalizing v with
  | zero => simp [bytesBe, be, Nat.mod_one]
  | succ n ih =>
    rw [bytesBe, be_append, ih, Nat.pow_succ, Nat.mul_comm (256 ^ n) 256, Nat.mod_mul]
    simp
    omega

theorem bytesBe_be (s : List Byte) : bytesBe s.length (be s) = s := by
  induction s using List.reverseRecOn with
  | nil => rfl
  | append_singleton s b ih =>
    have hb := b.isLt
    have h1 : (be s * 256 + b.toNat) / 256 = be s := by omega
    have h2 : BitVec.ofNat 8 (be s * 256 + b.toNat) = b := by
      apply BitVec.eq_of_toNat_eq; simp; omega
    rw [List.length_append, List.length_singleton, bytesBe, be_append, h1, h2, ih]

theorem be_lt (s : List Byte) : be s < 256 ^ s.length := by
  induction s using List.reverseRecOn with
  | nil => simp [be]
  | append_singleton s b ih =>
    have hb := b.isLt
    rw [be_append, List.length_append, List.length_singleton, Nat.pow_succ]
    omega

theorem deviceAddress_addrByte (d : Bool) (a : Addr) : deviceAddress (addrByte d a) = a := by
  revert d a; decide

theorem addrByte_toNat (d : Bool) (a : Addr) :
    (addrByte d a).toNat = (if d then 128 else 0) + a.toNat := by
  revert d a; decide

/-- ADDR read as its two fields and put together again. -/
theorem addrByte_fields (b : Byte) : addrByte (decide (128 ≤ b.toNat)) (deviceAddress b) = b := by
  revert b; decide

@[simp] theorem byteSum_nil : byteSum [] = 0 := rfl

@[simp] theorem byteSum_cons (b : Byte) (s : List Byte) : byteSum (b :: s) = b.toNat + byteSum s := rfl

@[simp] theorem byteSum_append (s t : List Byte) : byteSum (s ++ t) = byteSum s + byteSum t := by
  induction s with
  | nil => simp
  | cons b s ih => simp [ih, Nat.add_assoc]

theorem cksum_toNat (s : List Byte) : (cksum s).toNat = (256 - byteSum s % 256) % 256 := by
  simp [cksum]

/-- A byte after a sequence is its checksum exactly when the whole sums to 0 modulo 256 (30_encoding.md R56). -/
theorem eq_cksum_iff (s : List Byte) (c : Byte) : c = cksum s ↔ (byteSum s + c.toNat) % 256 = 0 := by
  have hc := c.isLt
  rw [← BitVec.toNat_inj, cksum_toNat]
  omega

@[simp] theorem ledBytes_length (p : LedFields) : (ledBytes p).length = 14 := rfl

@[simp] theorem capBytes_length (c : Capability) : (capBytes c).length = 3 := rfl

/-- The bytes of a Message's payload, by variant (30_encoding.md R58, column "payload the encoder produces"). -/
theorem payload_length (m : Message) :
    (payload m).length =
      match m with
      | .led _ => 14
      | .pdid p => 9 + p.firmware.length
      | .pdcap caps => 3 * caps.length
      | .raw p => 4 + p.bits.length
      | .lstatr _ => 2
      | _ => 0 := by
  cases m <;> simp [payload] <;> omega

/-- The well-formedness check is that the payload fits a frame. -/
theorem fits_iff (m : Message) : m.fits = true ↔ (payload m).length ≤ Param.maxData := by
  cases m <;> simp [payload_length, Message.fits, PdidFields.fits, capsFit, RawFields.fits, Param.maxData] <;> omega

@[simp] theorem message_ofMessage (a : Addr) (m : Message) : (Instr.ofMessage a m).message = m := by cases m <;> rfl

@[simp] theorem addr_ofMessage (a : Addr) (m : Message) : (Instr.ofMessage a m).addr = a := by cases m <;> rfl

@[simp] theorem ofMessage_addr_message (i : Instr) : Instr.ofMessage i.addr i.message = i := by cases i <;> rfl

theorem lookup_eq_some (c : Byte) (v : Variant) : lookup c = some v ↔ v.row.code = c := by
  revert c
  cases v <;> decide

@[simp] theorem lookup_codeOf (m : Message) : lookup (codeOf m) = some (variant m) :=
  (lookup_eq_some _ _).2 rfl

theorem variant_readFields (v : Variant) (d : List Byte) : variant (readFields v d) = v := by cases v <;> rfl

theorem decPayload_short {v : Variant} {d : List Byte} (h : d.length < v.row.fixedPart) : decPayload v d = none := if_pos h

theorem decPayload_long {v : Variant} {d : List Byte} (h : v.row.fixedPart ≤ d.length) :
    decPayload v d = some (readFields v d) := if_neg (Nat.not_lt.2 h)

/-- The registry at a registered code is the variant's own decoder (41_messages.md R90). -/
theorem regDecode_of_code {c : Byte} {v : Variant} (h : v.row.code = c) (d : List Byte) :
    regDecode c d = decPayload v d := by simp only [regDecode, (lookup_eq_some c v).2 h]

theorem regDecode_unregistered {c : Byte} (h : lookup c = none) (d : List Byte) : regDecode c d = none := by
  simp only [regDecode, h]

/-- A Message that the registry decodes has the code it was decoded for. -/
theorem codeOf_of_regDecode {c : Byte} {d : List Byte} {m : Message} (h : regDecode c d = some m) : codeOf m = c := by
  unfold regDecode at h
  split at h
  · cases h
  · rename_i v hv
    unfold decPayload at h
    split at h
    · cases h
    · cases h
      rw [codeOf, variant_readFields]
      exact (lookup_eq_some _ _).1 hv

/-- The bytes of a frame before the checksum, with LEN spelled out. -/
theorem frameHead_eq {data : List Byte} (addr ctrl cmd : Byte) (h : data.length ≤ Param.maxData) :
    frameHead addr ctrl cmd data =
      [0x53, addr, BitVec.ofNat 8 (7 + data.length), BitVec.ofNat 8 ((7 + data.length) / 256), ctrl, cmd] ++ data := by
  have h' : data.length ≤ 65528 := h
  have e : (BitVec.ofNat 16 (Param.overhead + data.length)).toNat = 7 + data.length := by
    rw [BitVec.toNat_ofNat]; exact Nat.mod_eq_of_lt (by simp only [Param.overhead]; omega)
  simp [frameHead, bytesLe16_eq, e, Param.som]

theorem encodeFrame_ok (addr ctrl cmd : Byte) {data : List Byte} (h : data.length ≤ Param.maxData) :
    encodeFrame addr ctrl cmd data = .ok (frameHead addr ctrl cmd data ++ [cksum (frameHead addr ctrl cmd data)]) :=
  if_neg (Nat.not_lt.2 h)

theorem encodeFrame_overflow (addr ctrl cmd : Byte) {data : List Byte} (h : Param.maxData < data.length) :
    encodeFrame addr ctrl cmd data = .error .overflow := if_pos h

@[simp] theorem frameHead_length (addr ctrl cmd : Byte) (data : List Byte) :
    (frameHead addr ctrl cmd data).length = 6 + data.length := by
  simp [frameHead]; omega

/-- A buffer of at least 7 bytes, taken apart at a frame's fields (30_encoding.md R50). -/
theorem exists_frame_fields {b : List Byte} (h : 7 ≤ b.length) :
    ∃ b0 b1 b2 b3 b4 b5 d c, b = b0 :: b1 :: b2 :: b3 :: b4 :: b5 :: (d ++ [c]) := by
  rcases b with _ | ⟨b0, _ | ⟨b1, _ | ⟨b2, _ | ⟨b3, _ | ⟨b4, _ | ⟨b5, r⟩⟩⟩⟩⟩⟩ <;> simp at h
  have hr : r ≠ [] := by rintro rfl; simp at h
  exact ⟨b0, b1, b2, b3, b4, b5, r.dropLast, r.getLast hr, by rw [List.dropLast_append_getLast]⟩

/-- The Frame of such a buffer. -/
theorem decodeFrame_fields (b0 b1 b2 b3 b4 b5 c : Byte) (d : List Byte) :
    decodeFrame (b0 :: b1 :: b2 :: b3 :: b4 :: b5 :: (d ++ [c])) =
      ⟨b0, b1, le16 b2 b3, b4, b5, d, c, validFlag (b0 :: b1 :: b2 :: b3 :: b4 :: b5 :: (d ++ [c]))⟩ := by
  simp [decodeFrame, byteAt, Param.overhead]

theorem le16_ofNat {n : Nat} (h : n < 65536) : le16 (BitVec.ofNat 8 n) (BitVec.ofNat 8 (n / 256)) = BitVec.ofNat 16 n := by
  apply BitVec.eq_of_toNat_eq
  rw [le16_toNat]
  simp
  omega

theorem byteSum_set {b : List Byte} {i : Nat} {v : Byte} (w : Byte) (h : b[i]? = some v) :
    byteSum (b.set i w) + v.toNat = byteSum b + w.toNat := by
  induction b generalizing i with
  | nil => simp at h
  | cons x b ih =>
    cases i with
    | zero => simp at h; subst h; simp; omega
    | succ i => simp at h; have := ih h; simp; omega

theorem capRecords_capBytes (caps : List Capability) : capRecords (caps.flatMap capBytes) = caps := by
  induction caps with
  | nil => rfl
  | cons c cs ih => simp [List.flatMap_cons, capBytes, capRecords]; exact ih

end Sys2Proof.Machine
end

