-- ==== Sys2Proof/Laws/State.lean ====
section
/-! SUPPORT. One lemma per field per update of State, and the register laws of the two tables. -/

namespace Sys2Proof.Machine.State

variable (s : State) (a b : Addr) (se : Session) (c d : Byte) (h : Handler) (k : Caller) (r : CallResult)

@[simp] theorem setSession_lastCtrl : (s.setSession a se).lastCtrl = s.lastCtrl := rfl
@[simp] theorem setSession_ctrlWritten : (s.setSession a se).ctrlWritten = s.ctrlWritten := rfl
@[simp] theorem setSession_hnd : (s.setSession a se).hnd = s.hnd := rfl
@[simp] theorem setSession_rx : (s.setSession a se).rx = s.rx := rfl
@[simp] theorem setSession_tx : (s.setSession a se).tx = s.tx := rfl
@[simp] theorem setSession_agenda : (s.setSession a se).agenda = s.agenda := rfl
@[simp] theorem setSession_returns : (s.setSession a se).returns = s.returns := rfl
@[simp] theorem setSession_handler : (s.setSession a se).handler c = s.handler c := rfl

@[simp] theorem setHandler_sess : (s.setHandler c h).sess = s.sess := rfl
@[simp] theorem setHandler_session : (s.setHandler c h).session a = s.session a := rfl
@[simp] theorem setHandler_lastCtrl : (s.setHandler c h).lastCtrl = s.lastCtrl := rfl
@[simp] theorem setHandler_ctrlWritten : (s.setHandler c h).ctrlWritten = s.ctrlWritten := rfl
@[simp] theorem setHandler_rx : (s.setHandler c h).rx = s.rx := rfl
@[simp] theorem setHandler_tx : (s.setHandler c h).tx = s.tx := rfl
@[simp] theorem setHandler_agenda : (s.setHandler c h).agenda = s.agenda := rfl
@[simp] theorem setHandler_returns : (s.setHandler c h).returns = s.returns := rfl

@[simp] theorem latch_sess : (s.latch c).sess = s.sess := rfl
@[simp] theorem latch_session : (s.latch c).session a = s.session a := rfl
@[simp] theorem latch_lastCtrl : (s.latch c).lastCtrl = c := rfl
@[simp] theorem latch_ctrlWritten : (s.latch c).ctrlWritten = true := rfl
@[simp] theorem latch_hnd : (s.latch c).hnd = s.hnd := rfl
@[simp] theorem latch_handler : (s.latch c).handler d = s.handler d := rfl
@[simp] theorem latch_rx : (s.latch c).rx = s.rx := rfl
@[simp] theorem latch_tx : (s.latch c).tx = s.tx := rfl
@[simp] theorem latch_agenda : (s.latch c).agenda = s.agenda := rfl
@[simp] theorem latch_returns : (s.latch c).returns = s.returns := rfl

@[simp] theorem report_sess : (s.report k r).sess = s.sess := rfl
@[simp] theorem report_session : (s.report k r).session a = s.session a := rfl
@[simp] theorem report_lastCtrl : (s.report k r).lastCtrl = s.lastCtrl := rfl
@[simp] theorem report_ctrlWritten : (s.report k r).ctrlWritten = s.ctrlWritten := rfl
@[simp] theorem report_hnd : (s.report k r).hnd = s.hnd := rfl
@[simp] theorem report_handler : (s.report k r).handler c = s.handler c := rfl
@[simp] theorem report_rx : (s.report k r).rx = s.rx := rfl
@[simp] theorem report_tx : (s.report k r).tx = s.tx := rfl
@[simp] theorem report_agenda : (s.report k r).agenda = s.agenda := rfl
@[simp] theorem report_returns : (s.report k r).returns = s.returns ++ [⟨k, r⟩] := rfl

@[simp] theorem withRx_session (l : List Byte) : State.session { s with rx := l } a = s.session a := rfl
@[simp] theorem withRx_handler (l : List Byte) : State.handler { s with rx := l } c = s.handler c := rfl
@[simp] theorem withTx_session (l : List Byte) : State.session { s with tx := l } a = s.session a := rfl
@[simp] theorem withTx_handler (l : List Byte) : State.handler { s with tx := l } c = s.handler c := rfl
@[simp] theorem withAgenda_session (l : List Event) : State.session { s with agenda := l } a = s.session a := rfl
@[simp] theorem withAgenda_handler (l : List Event) : State.handler { s with agenda := l } c = s.handler c := rfl

/-- Reading an entry after a write to an entry of the session table. -/
theorem session_setSession : (s.setSession a se).session b = if a = b then some se else s.session b := by
  simp only [State.session, State.setSession, Vector.getElem_set, ← BitVec.toNat_inj]

@[simp] theorem session_setSession_self : (s.setSession a se).session a = some se := by
  simp [session_setSession]

theorem session_setSession_ne {a b : Addr} (hab : a ≠ b) : (s.setSession a se).session b = s.session b := by
  simp [session_setSession, hab]

/-- Reading an entry after a write to an entry of the handler table. -/
theorem handler_setHandler : (s.setHandler c h).handler d = if c = d then some h else s.handler d := by
  simp only [State.handler, State.setHandler, Vector.getElem_set, ← BitVec.toNat_inj]

@[simp] theorem handler_setHandler_self : (s.setHandler c h).handler c = some h := by
  simp [handler_setHandler]

/-- The later of two writes to one entry is kept. -/
@[simp] theorem setSession_setSession (se' : Session) : (s.setSession a se).setSession a se' = s.setSession a se' := by
  simp [State.setSession, Vector.set_set]

/-- Writing back what an entry holds changes nothing. -/
theorem setSession_eq_self (hs : s.session a = some se) : s.setSession a se = s := by
  unfold State.session at hs
  simp [State.setSession, ← hs]

/-- A present entry read as the table's word. -/
theorem session_reset (a : Addr) : State.reset.session a = none := by
  simp [State.session, State.reset]

theorem handler_reset (c : Byte) : State.reset.handler c = if c = 0x60 then some .pollDefault else none := by
  have e : (0x60 = c.toNat) ↔ c = 0x60 := by
    rw [← BitVec.toNat_inj]; exact eq_comm
  simp only [State.handler, State.reset, Vector.getElem_set, Vector.getElem_replicate, e]

end Sys2Proof.Machine.State
end

