-- ==== Sys2Proof/Laws/Ops.lean ====
section
/-! SUPPORT. One lemma for each shared operation that says once what it can do. -/

namespace Sys2Proof.Machine

/-- What an operation of the engine's worker may do to the state whoever asks for it: sessions persist with their `addr` and
`init`, `LAST_CTRL`, RX and the agenda stay, TX and the answers only grow. -/
structure Grows (s t : State) : Prop where
  lastCtrl : t.lastCtrl = s.lastCtrl
  ctrlWritten : t.ctrlWritten = s.ctrlWritten
  rx : t.rx = s.rx
  agenda : t.agenda = s.agenda
  tx : s.tx <+: t.tx
  returns : s.returns <+: t.returns
  absent : ∀ a, s.session a = none → t.session a = none
  present : ∀ a se, s.session a = some se → ∃ se', t.session a = some se' ∧ se'.addr = se.addr ∧ se'.init = se.init

theorem Grows.refl (s : State) : Grows s s :=
  ⟨rfl, rfl, rfl, rfl, List.prefix_rfl, List.prefix_rfl, fun _ h => h, fun _ se h => ⟨se, h, rfl, rfl⟩⟩

theorem Grows.trans {s t u : State} (h : Grows s t) (k : Grows t u) : Grows s u where
  lastCtrl := k.lastCtrl.trans h.lastCtrl
  ctrlWritten := k.ctrlWritten.trans h.ctrlWritten
  rx := k.rx.trans h.rx
  agenda := k.agenda.trans h.agenda
  tx := h.tx.trans k.tx
  returns := h.returns.trans k.returns
  absent a ha := k.absent a (h.absent a ha)
  present a se ha := by
    obtain ⟨se', h1, h2, h3⟩ := h.present a se ha
    obtain ⟨se'', k1, k2, k3⟩ := k.present a se' h1
    exact ⟨se'', k1, k2.trans h2, k3.trans h3⟩

/-- The three outcomes of `send` (43_engine.md R135). -/
theorem send_cases (a : Addr) (m : Message) (s : State) :
    (s.session a = none ∧ send a m s = (.sessionNotFound a, s)) ∨
    (∃ se, s.session a = some se ∧ Param.maxData < (payload m).length ∧ send a m s = (.encodeOverflow, s)) ∨
    (∃ se bs, s.session a = some se ∧ (payload m).length ≤ Param.maxData ∧
      encodeFrame (outAddr se m) s.lastCtrl (codeOf m) (payload m) = .ok bs ∧
      send a m s = (.ok, { s with tx := s.tx ++ bs })) := by
  unfold send
  split
  · exact .inl ⟨‹_›, rfl⟩
  · rename_i se hse
    by_cases h : (payload m).length ≤ Param.maxData
    · refine .inr (.inr ⟨se, _, hse, h, encodeFrame_ok _ _ _ h, ?_⟩)
      simp only [regEncode, encodeFrame_ok _ _ _ h, txWrite]
    · refine .inr (.inl ⟨se, hse, Nat.not_le.1 h, ?_⟩)
      simp only [regEncode, encodeFrame_overflow _ _ _ (Nat.not_le.1 h)]

theorem send_absent {a : Addr} {s : State} (m : Message) (h : s.session a = none) :
    send a m s = (.sessionNotFound a, s) := by simp [send, h]

theorem send_present {a : Addr} {m : Message} {s : State} {se : Session} (h : s.session a = some se)
    (hm : (payload m).length ≤ Param.maxData) :
    send a m s = (.ok, { s with tx := s.tx ++ messageFrame se s.lastCtrl m }) := by
  simp only [send, h, regEncode, encodeFrame_ok _ _ _ hm, txWrite, frameHead_eq _ _ _ hm]
  rfl

theorem send_overflow {a : Addr} {m : Message} {s : State} {se : Session} (h : s.session a = some se)
    (hm : Param.maxData < (payload m).length) : send a m s = (.encodeOverflow, s) := by
  simp only [send, h, regEncode, encodeFrame_overflow _ _ _ hm]

theorem send_grows (a : Addr) (m : Message) (s : State) : Grows s (send a m s).2 := by
  obtain ⟨-, e⟩ | ⟨se, -, -, e⟩ | ⟨se, bs, -, -, -, e⟩ := send_cases a m s
  · rw [e]; exact .refl s
  · rw [e]; exact .refl s
  · rw [e]; exact ⟨rfl, rfl, rfl, rfl, ⟨bs, rfl⟩, List.prefix_rfl, fun _ h => h, fun _ se h => ⟨se, h, rfl, rfl⟩⟩

/-- A write to a present session that keeps its `addr` and `init`. -/
theorem setSession_grows {s : State} {a : Addr} {se : Session} (q : List Message) (h : s.session a = some se) :
    Grows s (s.setSession a { se with q := q }) where
  lastCtrl := rfl
  ctrlWritten := rfl
  rx := rfl
  agenda := rfl
  tx := List.prefix_rfl
  returns := List.prefix_rfl
  absent b hb := by
    rw [State.session_setSession_ne]
    · exact hb
    · rintro rfl; simp [h] at hb
  present b se' hb := by
    by_cases hab : a = b
    · subst hab
      rw [h] at hb
      cases hb
      exact ⟨_, State.session_setSession_self .., rfl, rfl⟩
    · exact ⟨se', by rw [State.session_setSession_ne _ _ hab, hb], rfl, rfl⟩

theorem enqueue_grows (a : Addr) (m : Message) (s : State) : Grows s (enqueue a m s).2 := by
  unfold enqueue
  split
  · exact .refl s
  · exact setSession_grows _ ‹_›

theorem report_grows (s : State) (k : Caller) (r : CallResult) : Grows s (s.report k r) :=
  ⟨rfl, rfl, rfl, rfl, List.prefix_rfl, ⟨_, rfl⟩, fun _ h => h, fun _ se h => ⟨se, h, rfl, rfl⟩⟩

theorem perform_grows (k : Caller) (s : State) (act : Action) : Grows s (perform k s act) := by
  cases act with
  | send a m => exact (send_grows a m s).trans (report_grows ..)
  | enqueue a m => exact (enqueue_grows a m s).trans (report_grows ..)
  | register c h =>
    exact ⟨rfl, rfl, rfl, rfl, List.prefix_rfl, List.prefix_rfl, fun _ h => h, fun _ se h => ⟨se, h, rfl, rfl⟩⟩

theorem runActions_grows (k : Caller) (acts : List Action) (s : State) : Grows s (runActions k acts s) := by
  induction acts generalizing s with
  | nil => exact .refl s
  | cons act acts ih => exact (perform_grows k s act).trans (ih _)

/-- The actions of a list are performed in its order. -/
theorem runActions_append (k : Caller) (xs ys : List Action) (s : State) :
    runActions k (xs ++ ys) s = runActions k ys (runActions k xs s) := by
  induction xs generalizing s with
  | nil => rfl
  | cons x xs ih => exact ih _

theorem pollDefault_grows (a : Addr) (s : State) : Grows s (pollDefault a s) := by
  unfold pollDefault
  split
  · exact .refl s
  · split
    · exact (setSession_grows _ ‹_›).trans (send_grows ..)
    · exact send_grows ..

theorem pollDefault_nil {a : Addr} {s : State} {se : Session} (h : s.session a = some se) (hq : se.q = []) :
    pollDefault a s = (send a .ack s).2 := by simp only [pollDefault, h, hq]

theorem pollDefault_cons {a : Addr} {s : State} {se : Session} {m : Message} {rest : List Message}
    (h : s.session a = some se) (hq : se.q = m :: rest) :
    pollDefault a s = (send a m (s.setSession a { se with q := rest })).2 := by simp only [pollDefault, h, hq]

theorem enqueue_absent {a : Addr} {s : State} (m : Message) (h : s.session a = none) :
    enqueue a m s = (.sessionNotFound a, s) := by simp only [enqueue, h]

theorem enqueue_present {a : Addr} {s : State} {se : Session} (m : Message) (h : s.session a = some se) :
    enqueue a m s = (.ok, s.setSession a { se with q := se.q ++ [m] }) := by simp only [enqueue, h]

theorem runHandler_grows (h : Handler) (a : Addr) (c : Byte) (m : Message) (s : State) :
    Grows s (runHandler h a c m s) := by
  unfold runHandler
  split
  · exact .refl s
  · exact runActions_grows ..

theorem callHandler_grows (a : Addr) (m : Message) (s : State) : Grows s (callHandler a m s) := by
  unfold callHandler
  split
  · exact .refl s
  · exact pollDefault_grows ..
  · exact runHandler_grows ..

theorem callHandler_none {a : Addr} {m : Message} {s : State} (h : s.handler (codeOf m) = none) :
    callHandler a m s = s := by simp [callHandler, h]

theorem callHandler_pollDefault {a : Addr} {m : Message} {s : State} (h : s.handler (codeOf m) = some .pollDefault) :
    callHandler a m s = pollDefault a s := by simp [callHandler, h]

theorem callHandler_given {a : Addr} {m : Message} {s : State} {acts : List GivenAction} {se : Session}
    (h : s.handler (codeOf m) = some (.given acts)) (hs : s.session a = some se) :
    callHandler a m s = runActions (.handler (codeOf m)) (acts.map (toAction se.addr)) s := by
  simp [callHandler, h, runHandler, hs, handlerActions]

theorem callHandler_host {a : Addr} {m : Message} {s : State} {n : Nat} {se : Session}
    (h : s.handler (codeOf m) = some (.host n)) (hs : s.session a = some se) :
    callHandler a m s = runActions (.handler (codeOf m)) (Config.hostHandler n se.addr se.init se.q m) s := by
  simp [callHandler, h, runHandler, hs, handlerActions]

theorem getOrCreate_eq (a : Addr) (s : State) : getOrCreate a s = s.setSession a (sessionOr s a) := by
  unfold getOrCreate sessionOr
  split
  · simp [*, freshSession]
  · rename_i se h
    rw [h, Option.getD_some, State.setSession_eq_self s a se h]

theorem setInit_getOrCreate_eq (a : Addr) (b : Bool) (s : State) :
    setInit a b (getOrCreate a s) = s.setSession a { sessionOr s a with init := b } := by
  simp [getOrCreate_eq, setInit]

theorem receive_eq (a : Addr) (m : Message) (s : State) :
    receive a m s = callHandler a m (s.setSession a (sessionOr s a)) := by rw [receive, getOrCreate_eq]

theorem receiveInit_eq (a : Addr) (b : Bool) (m : Message) (s : State) :
    receiveInit a b m s = callHandler a m (s.setSession a { sessionOr s a with init := b }) := by
  rw [receiveInit, setInit_getOrCreate_eq]

/-- Every instruction answers a next state: the session of its address exists with the `init` of the hardwired transition,
and then the handler runs. -/
theorem exec_eq (i : Instr) (s : State) :
    exec i s = .next (callHandler i.addr i.message
      (s.setSession i.addr { sessionOr s i.addr with init := initAfter i.message (sessionOr s i.addr).init })) := by
  cases i <;>
    simp only [exec, execPoll, execId, execCap, execLstat, execLed, execBuz, execAck, execPdid, execPdcap, execRaw, execLstatr,
      receive_eq, receiveInit_eq] <;> rfl

theorem send_hnd (a : Addr) (m : Message) (s : State) : (send a m s).2.hnd = s.hnd := by
  obtain ⟨-, e⟩ | ⟨se, -, -, e⟩ | ⟨se, bs, -, -, -, e⟩ := send_cases a m s <;> rw [e]

theorem send_session (a b : Addr) (m : Message) (s : State) : (send a m s).2.session b = s.session b := by
  obtain ⟨-, e⟩ | ⟨se, -, -, e⟩ | ⟨se, bs, -, -, -, e⟩ := send_cases a m s <;> rw [e]
  rfl

theorem enqueue_hnd (a : Addr) (m : Message) (s : State) : (enqueue a m s).2.hnd = s.hnd := by
  unfold enqueue
  split <;> rfl

theorem enqueue_tx (a : Addr) (m : Message) (s : State) : (enqueue a m s).2.tx = s.tx := by
  unfold enqueue
  split <;> rfl

theorem pollDefault_hnd (a : Addr) (s : State) : (pollDefault a s).hnd = s.hnd := by
  unfold pollDefault
  split
  · rfl
  · split <;> simp [send_hnd]

/-- A handler given as data registers nothing. -/
theorem runActions_given_hnd (k : Caller) (own : Addr) (acts : List GivenAction) (s : State) :
    (runActions k (acts.map (toAction own)) s).hnd = s.hnd := by
  induction acts generalizing s with
  | nil => rfl
  | cons x xs ih =>
    rw [List.map_cons, runActions, ih]
    rcases x with ⟨_ | _, m⟩ | ⟨_ | _, m⟩ <;> simp [toAction, perform, answered, send_hnd, enqueue_hnd]

/-- Every queue of `s` is still there in `t`, with at most Messages added at its tail. -/
def QueuesGrow (s t : State) : Prop :=
  ∀ b se, s.session b = some se → ∃ se', t.session b = some se' ∧ se.q <+: se'.q

theorem QueuesGrow.trans {s t u : State} (h : QueuesGrow s t) (k : QueuesGrow t u) : QueuesGrow s u := fun b se hs => by
  obtain ⟨x, h1, h2⟩ := h b se hs
  obtain ⟨y, k1, k2⟩ := k b x h1
  exact ⟨y, k1, h2.trans k2⟩

theorem QueuesGrow.of_session {s t : State} (h : ∀ b, t.session b = s.session b) : QueuesGrow s t :=
  fun b se hs => ⟨se, (h b).trans hs, List.prefix_rfl⟩

theorem perform_queuesGrow (k : Caller) (s : State) (act : Action) : QueuesGrow s (perform k s act) := by
  cases act with
  | send a m => exact .of_session fun b => by simp [perform, answered, send_session]
  | enqueue a m =>
    intro b se hs
    simp only [perform, answered, State.report_session]
    rcases ha : s.session a with _ | x
    · rw [enqueue_absent m ha]; exact ⟨se, hs, List.prefix_rfl⟩
    · rw [enqueue_present m ha]
      by_cases hab : a = b
      · subst hab
        rw [ha] at hs
        cases hs
        exact ⟨_, State.session_setSession_self .., ⟨[m], rfl⟩⟩
      · exact ⟨se, by rw [State.session_setSession_ne _ _ hab, hs], List.prefix_rfl⟩
  | register c h => exact .of_session fun _ => rfl

theorem runActions_queuesGrow (k : Caller) (acts : List Action) (s : State) : QueuesGrow s (runActions k acts s) := by
  induction acts generalizing s with
  | nil => exact .of_session fun _ => rfl
  | cons act acts ih => exact (perform_queuesGrow k s act).trans (ih _)

/-- What executing an instruction leaves of the machine's state outside the sessions, TX, the answers and HND. -/
theorem exec_keeps {i : Instr} {s t : State} (h : exec i s = .next t) :
    t.rx = s.rx ∧ t.agenda = s.agenda ∧ t.lastCtrl = s.lastCtrl ∧ t.ctrlWritten = s.ctrlWritten := by
  rw [exec_eq] at h
  cases h
  have g := callHandler_grows i.addr i.message
    (s.setSession i.addr { sessionOr s i.addr with init := initAfter i.message (sessionOr s i.addr).init })
  exact ⟨g.rx, g.agenda, g.lastCtrl, g.ctrlWritten⟩

end Sys2Proof.Machine
end

