-- ==== Sys2Proof/Laws/PerInstr.lean ====
section
/-! SUPPORT. What is said of every instruction as syntax, one lemma per constructor. -/

namespace Sys2Proof.Laws.CmdByte

open Machine

/-- The frame of a well-formed instruction has its row's code in the CMD byte, at offset 5 (30_encoding.md R50, R58). -/
def Statement (i : Instr) : Prop :=
  ∀ h : Header, i.wellFormed = true → ∃ bs, encode h i = .ok bs ∧ bs[5]? = some (codeOf i.message)

theorem of_fits (i : Instr) : Statement i := fun h hw => by
  have hf := (fits_iff _).1 hw
  exact ⟨_, encodeFrame_ok _ _ _ hf, by simp [regEncode, frameHead_eq _ _ _ hf]⟩

theorem poll (a : Addr) : Statement (.poll a) := of_fits _
theorem id (a : Addr) : Statement (.id a) := of_fits _
theorem cap (a : Addr) : Statement (.cap a) := of_fits _
theorem lstat (a : Addr) : Statement (.lstat a) := of_fits _
theorem led (a : Addr) (p : LedFields) : Statement (.led a p) := of_fits _
theorem buz (a : Addr) : Statement (.buz a) := of_fits _
theorem ack (a : Addr) : Statement (.ack a) := of_fits _
theorem pdid (a : Addr) (p : PdidFields) : Statement (.pdid a p) := of_fits _
theorem pdcap (a : Addr) (caps : List Capability) : Statement (.pdcap a caps) := of_fits _
theorem raw (a : Addr) (p : RawFields) : Statement (.raw a p) := of_fits _
theorem lstatr (a : Addr) (p : LstatrFields) : Statement (.lstatr a p) := of_fits _

end Sys2Proof.Laws.CmdByte
end

