-- ==== Sys2Proof/Laws/Step.lean ====
section
/-! SUPPORT. What reading a frame, fetching an instruction, an iteration and a step can do. -/

namespace Sys2Proof.Machine

theorem assemble_nil {s : State} (h : s.rx = []) : assemble s = (.error .exhausted, s) := by
  cases s
  cases h
  rfl

theorem assemble_notSom {s : State} {b : Byte} {r : List Byte} (h : s.rx = b :: r) (hb : b ≠ Param.som) :
    assemble s = (.error .notSom, { s with rx := r }) := by
  simp [assemble, rxRead, h, hb]

theorem assemble_shortHeader {s : State} {r : List Byte} (h : s.rx = Param.som :: r) (hr : r.length < 3) :
    assemble s = (.error .exhausted, { s with rx := [] }) := by
  have e : r.drop 3 = [] := List.drop_eq_nil_of_le (by omega)
  simp [assemble, rxRead, h, Param.hdrRest, hr, e]

theorem assemble_shortLength {s : State} {a l u : Byte} {r : List Byte} (h : s.rx = Param.som :: a :: l :: u :: r)
    (hl : (le16 l u).toNat < 6) : assemble s = (.error .shortLength, { s with rx := r }) := by
  simp [assemble, rxRead, h, Param.hdrRest, Param.minStreamLen, byteAt, hl]

theorem assemble_body {s : State} {a l u : Byte} {r : List Byte} (h : s.rx = Param.som :: a :: l :: u :: r)
    (hl : 6 ≤ (le16 l u).toNat) :
    assemble s = (.ok (Param.som :: a :: l :: u :: r.take ((le16 l u).toNat - 4)),
      { s with rx := r.drop ((le16 l u).toNat - 4) }) := by
  simp [assemble, rxRead, h, Param.hdrRest, Param.minStreamLen, byteAt, Nat.not_lt.2 hl]

/-- Every case of `assemble`: it takes away the first `k` bytes, at least one where RX holds any and at most 65535, and a
buffer it hands over is those bytes (40_frame_codec.md R79). -/
theorem assemble_cases (s : State) :
    ∃ k, (assemble s).2 = { s with rx := s.rx.drop k } ∧ k ≤ 65535 ∧ (s.rx ≠ [] → 1 ≤ k) ∧
      ∀ b, (assemble s).1 = .ok b → b = s.rx.take k := by
  rcases hrx : s.rx with _ | ⟨b, r⟩
  · exact ⟨0, by rw [assemble_nil hrx, ← hrx]; rfl, by omega, by simp, by simp [assemble_nil hrx]⟩
  by_cases hb : b = Param.som
  swap
  · exact ⟨1, by simp [assemble_notSom hrx hb], by omega, by simp, by simp [assemble_notSom hrx hb]⟩
  subst hb
  rcases r with _ | ⟨a, _ | ⟨l, _ | ⟨u, r⟩⟩⟩
  · exact ⟨1, by simp [assemble_shortHeader hrx], by omega, by simp, by simp [assemble_shortHeader hrx]⟩
  · exact ⟨2, by simp [assemble_shortHeader hrx], by omega, by simp, by simp [assemble_shortHeader hrx]⟩
  · exact ⟨3, by simp [assemble_shortHeader hrx], by omega, by simp, by simp [assemble_shortHeader hrx]⟩
  by_cases hl : (le16 l u).toNat < 6
  · exact ⟨4, by simp [assemble_shortLength hrx hl], by omega, by simp, by simp [assemble_shortLength hrx hl]⟩
  · have hL := (le16 l u).isLt
    obtain ⟨k, hk⟩ : ∃ k, (le16 l u).toNat = k + 4 := ⟨(le16 l u).toNat - 4, by omega⟩
    refine ⟨k + 4, ?_, by omega, by simp, ?_⟩
    · simp [assemble_body hrx (Nat.not_lt.1 hl), hk]
    · simp [assemble_body hrx (Nat.not_lt.1 hl), hk]

/-- `read_from_stream` hands what it assembled to `decodeFrame`, or has no frame. -/
theorem readFromStream_cases (s : State) :
    (∃ e s1, assemble s = (.error e, s1) ∧ readFromStream s = (none, s1)) ∨
    (∃ b s1, assemble s = (.ok b, s1) ∧ readFromStream s = (some (decodeFrame b), s1)) := by
  rcases h : assemble s with ⟨e | b, s1⟩
  · exact .inl ⟨e, s1, rfl, by simp only [readFromStream, h]⟩
  · exact .inr ⟨b, s1, rfl, by simp only [readFromStream, h]⟩

/-- What the flag of a valid buffer says (40_frame_codec.md R75). -/
theorem validFlag_iff (b : List Byte) :
    validFlag b = true ↔ 7 ≤ b.length ∧ byteAt b 0 = Param.som ∧ byteAt b 4 &&& Param.ctrlReject = 0 ∧
      byteAt b (b.length - 1) = cksum (b.take (b.length - 1)) ∧ (le16 (byteAt b 2) (byteAt b 3)).toNat = b.length := by
  simp only [validFlag, startOk, modeOk, checksumOk, lengthOk, Bool.and_eq_true, decide_eq_true_eq, beq_iff_eq, and_assoc]
  exact Iff.rfl

/-- A valid frame at the head of RX is read whole (40_frame_codec.md R79). -/
theorem assemble_valid {s : State} {b rest : List Byte} (h : s.rx = b ++ rest) (hv : validFlag b = true) :
    assemble s = (.ok b, { s with rx := rest }) := by
  obtain ⟨h7, hs, -, -, hl⟩ := (validFlag_iff b).1 hv
  rcases b with _ | ⟨b0, _ | ⟨b1, _ | ⟨b2, _ | ⟨b3, r⟩⟩⟩⟩ <;> simp at h7
  simp only [byteAt, List.getD_cons_zero, List.getD_cons_succ] at hs hl
  subst hs
  have e : (le16 b2 b3).toNat - 4 = r.length := by rw [hl]; simp
  rw [assemble_body (a := b1) (l := b2) (u := b3) (r := r ++ rest) (by rw [h]; rfl) (by rw [hl]; simp; omega), e]
  simp

theorem fetch_idle {s : State} (h : s.rx = []) : fetch s = (.idle, s) := by simp [fetch, rxAvail, h]

theorem fetch_of_assemble_error {s s1 : State} {e : NoFrame} (h : s.rx ≠ []) (ha : assemble s = (.error e, s1)) :
    fetch s = (.noFrame e, s1) := by simp [fetch, rxAvail, h, ha]

theorem fetch_of_invalid {s s1 : State} {b : List Byte} (h : s.rx ≠ []) (ha : assemble s = (.ok b, s1))
    (hv : validFlag b = false) : fetch s = (.rejected (invalidReason b), s1) := by
  simp [fetch, rxAvail, h, ha, decodeFrame, hv]

theorem fetch_of_refused {s s1 : State} {b : List Byte} (h : s.rx ≠ []) (ha : assemble s = (.ok b, s1))
    (hv : validFlag b = true) (hm : regDecode (decodeFrame b).cmd (decodeFrame b).data = none) :
    fetch s = (.rejected (regReason (decodeFrame b).cmd), s1.latch (decodeFrame b).ctrl) := by
  have hv' : (decodeFrame b).isValid = true := hv
  simp [fetch, rxAvail, h, ha, hv', hm]

theorem fetch_of_message {s s1 : State} {b : List Byte} {m : Message} (h : s.rx ≠ []) (ha : assemble s = (.ok b, s1))
    (hv : validFlag b = true) (hm : regDecode (decodeFrame b).cmd (decodeFrame b).data = some m) :
    fetch s = (.run (Instr.ofMessage (deviceAddress (decodeFrame b).addr) m), s1.latch (decodeFrame b).ctrl) := by
  have hv' : (decodeFrame b).isValid = true := hv
  simp [fetch, rxAvail, h, ha, hv', hm]

/-- Every case of `fetch`: bytes leave RX, and `LAST_CTRL` is latched exactly with a valid frame, whose CTRL byte has no mode
bit set; an instruction is found only with a latch. -/
theorem fetch_cases (s : State) :
    (s.rx = [] ∧ fetch s = (.idle, s)) ∨
    (∃ k, 1 ≤ k ∧ k ≤ 65535 ∧ (fetch s).2 = { s with rx := s.rx.drop k } ∧
      ((∃ e, (fetch s).1 = .noFrame e) ∨ ∃ r, (fetch s).1 = .rejected r)) ∨
    (∃ k c, 1 ≤ k ∧ k ≤ 65535 ∧ c &&& Param.ctrlReject = 0 ∧ (fetch s).2 = State.latch { s with rx := s.rx.drop k } c ∧
      ((∃ r, (fetch s).1 = .rejected r) ∨ ∃ i, (fetch s).1 = .run i)) := by
  by_cases h : s.rx = []
  · exact .inl ⟨h, fetch_idle h⟩
  obtain ⟨k, h2, hk, h1, -⟩ := assemble_cases s
  rcases ha : assemble s with ⟨e | b, s1⟩ <;> rw [ha] at h2 <;> cases h2
  · rw [fetch_of_assemble_error h ha]
    exact .inr (.inl ⟨k, h1 h, hk, rfl, .inl ⟨e, rfl⟩⟩)
  · rcases hv : validFlag b with _ | _
    · rw [fetch_of_invalid h ha hv]
      exact .inr (.inl ⟨k, h1 h, hk, rfl, .inr ⟨_, rfl⟩⟩)
    · have hc := ((validFlag_iff b).1 hv).2.2.1
      rcases hm : regDecode (decodeFrame b).cmd (decodeFrame b).data with _ | m
      · rw [fetch_of_refused h ha hv hm]
        exact .inr (.inr ⟨k, _, h1 h, hk, hc, rfl, .inl ⟨_, rfl⟩⟩)
      · rw [fetch_of_message h ha hv hm]
        exact .inr (.inr ⟨k, _, h1 h, hk, hc, rfl, .inr ⟨_, rfl⟩⟩)

/-- An iteration is its fetch, and the execution of the instruction it found. -/
theorem iterate_eq (s : State) :
    iterate s = match (fetch s).1 with
      | .run i => exec i (fetch s).2
      | _ => .next (fetch s).2 := by
  unfold iterate
  rcases fetch s with ⟨_ | _ | _ | _, s1⟩ <;> rfl

theorem iterate_of_run {s s1 : State} {i : Instr} (h : fetch s = (.run i, s1)) : iterate s = exec i s1 := by
  simp [iterate, h]

theorem iterate_of_drop {s s1 : State} {f : Fetched} (h : fetch s = (f, s1)) (hf : ∀ i, f ≠ .run i) :
    iterate s = .next s1 := by
  rcases f with _ | _ | _ | i
  · simp [iterate, h]
  · simp [iterate, h, dropFrame]
  · simp [iterate, h, dropFrame]
  · exact absurd rfl (hf i)

theorem step_iterate {s : State} (h : s.agenda = []) : step s = iterate s := by simp [step, h]

theorem step_event {s : State} {e : Event} {rest : List Event} (h : s.agenda = e :: rest) :
    step s = runEvent e { s with agenda := rest } := by simp [step, h]

/-- Every step is an iteration from `iterationStart`, or one of the other agents' steps. -/
theorem step_cases (s : State) :
    (∃ s0, iterationStart s = some s0 ∧ step s = iterate s0 ∧ s0 = { s with agenda := s.agenda.tail }) ∨
    (∃ e rest, s.agenda = e :: rest ∧ e ≠ .iterate ∧ iterationStart s = none ∧
      step s = runEvent e { s with agenda := rest }) := by
  rcases ha : s.agenda with _ | ⟨e, rest⟩
  · refine .inl ⟨s, by simp [iterationStart, ha], step_iterate ha, ?_⟩
    cases s; cases ha; rfl
  · cases e
    · exact .inl ⟨_, by simp [iterationStart, ha], step_event ha, rfl⟩
    all_goals exact .inr ⟨_, _, rfl, by simp, by simp [iterationStart, ha], step_event ha⟩

/-- A run goes on from the next state. -/
theorem run_next (M : Host.Core) {n : Nat} {s t : M.State} (h : M.step s = .next t) : M.run (n + 1) s = M.run n t := by
  simp only [Host.Core.run, h]

/-- Fetching touches no session. -/
theorem fetch_session (s : State) (a : Addr) : (fetch s).2.session a = s.session a := by
  rcases fetch_cases s with ⟨-, h⟩ | ⟨k, -, -, h, -⟩ | ⟨k, c, -, -, -, h, -⟩ <;> rw [h] <;> rfl

/-- A completed iteration executed the instruction it fetched, or is its fetch. -/
theorem iterate_next_cases {s t : State} (h : iterate s = .next t) :
    ((∀ i, (fetch s).1 ≠ .run i) ∧ t = (fetch s).2) ∨ ∃ i, (fetch s).1 = .run i ∧ exec i (fetch s).2 = .next t := by
  rw [iterate_eq] at h
  rcases hf : (fetch s).1 with _ | _ | _ | i <;> rw [hf] at h
  · exact .inl ⟨by simp, by cases h; rfl⟩
  · exact .inl ⟨by simp, by cases h; rfl⟩
  · exact .inl ⟨by simp, by cases h; rfl⟩
  · exact .inr ⟨i, rfl, h⟩

/-- The instruction a step executes is the one its iteration fetches. -/
theorem executes_of_fetch {s s0 : State} {i : Instr} (h : iterationStart s = some s0) (hf : (fetch s0).1 = .run i) :
    executes s = some i := by simp [executes, h, hf]

end Sys2Proof.Machine
end

