-- ==== Sys2Proof/Tests/Slice0.lean ====
section
/-! SUPPORT. Tests, each with its source in spec/95_test_vectors.md or worked out by hand from the rules, and a witness for the
hypotheses of every statement. -/

namespace Sys2Proof.Tests

open Machine

/-- The next state of an outcome. -/
def nx : Result → State
  | .next s => s
  | .fault _ => .reset
  | .refused _ => .reset

/-- The state after reset, with bytes delivered. -/
def rxState (bs : List Byte) : State := { State.reset with rx := bs }

/-- Session 1 present, as after a valid frame with CTRL 0x00. -/
def sess1 (init : Bool) (q : List Message) : State :=
  { State.reset.setSession 1 ⟨1, init, q⟩ with ctrlWritten := true }

/-- A PDID whose payload has 9 + n bytes. -/
def pdidOf (n : Nat) : Message := .pdid ⟨0, 0, 0, 0, List.replicate n 0⟩

/-- The POLL frame of S8 as corrected by 90_conflicts.md C5. -/
def pollFrame : List Byte := [0x53, 0x01, 0x07, 0x00, 0x00, 0x60, 0x45]

/-- The LED data of B5. -/
def ledB5 : LedFields := ⟨0, 0, 2, 5, 5, 1, 0, 0x1E, 0, 1, 1, 0, 2, 0⟩

/- ## Well-formedness: the largest payload that fits, and one more (41_messages.md R100 to R102) -/

theorem test_wf_pdid_max : Instr.wellFormed (.pdid 1 ⟨0, 0, 0, 0, List.replicate 65519 0⟩) = true := by
  simp only [Instr.wellFormed, Instr.message, Message.fits, PdidFields.fits, List.length_replicate]; decide
theorem test_wf_pdid_refused : Instr.wellFormed (.pdid 1 ⟨0, 0, 0, 0, List.replicate 65520 0⟩) = false := by
  simp only [Instr.wellFormed, Instr.message, Message.fits, PdidFields.fits, List.length_replicate]; decide
theorem test_wf_pdcap_max : Instr.wellFormed (.pdcap 1 (List.replicate 21842 ⟨1, 1, 1⟩)) = true := by
  simp only [Instr.wellFormed, Instr.message, Message.fits, capsFit, List.length_replicate]; decide
theorem test_wf_pdcap_refused : Instr.wellFormed (.pdcap 1 (List.replicate 21843 ⟨1, 1, 1⟩)) = false := by
  simp only [Instr.wellFormed, Instr.message, Message.fits, capsFit, List.length_replicate]; decide
theorem test_wf_raw_max : Instr.wellFormed (.raw 1 ⟨0, 0, 0, List.replicate 65524 0⟩) = true := by
  simp only [Instr.wellFormed, Instr.message, Message.fits, RawFields.fits, List.length_replicate]; decide
theorem test_wf_raw_refused : Instr.wellFormed (.raw 1 ⟨0, 0, 0, List.replicate 65525 0⟩) = false := by
  simp only [Instr.wellFormed, Instr.message, Message.fits, RawFields.fits, List.length_replicate]; decide

/- ## Decoding: B8 (commands), B7 (replies), one word per constructor -/

theorem test_decode_poll : decode pollFrame = .ok (.poll 1) := by decide
theorem test_decode_id : decode [0x53, 0x01, 0x07, 0x00, 0x00, 0x61, 0x44] = .ok (.id 1) := by decide
theorem test_decode_cap : decode [0x53, 0x01, 0x07, 0x00, 0x00, 0x62, 0x43] = .ok (.cap 1) := by decide
theorem test_decode_lstat : decode [0x53, 0x01, 0x07, 0x00, 0x00, 0x64, 0x41] = .ok (.lstat 1) := by decide
theorem test_decode_led :
    decode [0x53, 0x01, 0x15, 0x00, 0x00, 0x69, 0x00, 0x00, 0x02, 0x05, 0x05, 0x01, 0x00, 0x1E, 0x00, 0x01, 0x01, 0x00, 0x02,
      0x00, 0xFF] = .ok (.led 1 ledB5) := by decide
theorem test_decode_buz : decode [0x53, 0x01, 0x0C, 0x00, 0x00, 0x6A, 0x00, 0x02, 0x01, 0x01, 0x01, 0x31] = .ok (.buz 1) := by
  decide
theorem test_decode_ack : decode [0x53, 0x81, 0x07, 0x00, 0x00, 0x40, 0xE5] = .ok (.ack 1) := by decide
theorem test_decode_pdid :
    decode [0x53, 0x81, 0x10, 0x00, 0x00, 0x45, 0x12, 0x34, 0x56, 0x01, 0x02, 0xDE, 0xAD, 0xBE, 0xEF, 0x00] =
      .ok (.pdid 1 ⟨0x123456, 1, 2, 0xDEADBEEF, []⟩) := by decide
theorem test_decode_pdcap :
    decode [0x53, 0x81, 0x0D, 0x00, 0x00, 0x46, 0x04, 0x01, 0x01, 0x05, 0x01, 0x01, 0xCC] =
      .ok (.pdcap 1 [⟨4, 1, 1⟩, ⟨5, 1, 1⟩]) := by decide
theorem test_decode_raw :
    decode [0x53, 0x81, 0x0F, 0x00, 0x01, 0x50, 0x00, 0x01, 0x1A, 0x00, 0xA5, 0x5A, 0xC3, 0x40, 0xAF] =
      .ok (.raw 1 ⟨0, 1, 26, [0xA5, 0x5A, 0xC3, 0x40]⟩) := by decide
theorem test_decode_lstatr : decode [0x53, 0x81, 0x09, 0x00, 0x00, 0x48, 0x01, 0x00, 0xDA] = .ok (.lstatr 1 ⟨1, 0⟩) := by decide

/-- B5: RAW's count is little-endian; reserved capability codes are kept; a partial record is ignored. -/
theorem test_registry_raw : regDecode 0x50 [0x01, 0x02, 0x34, 0x12] = some (.raw ⟨1, 2, 0x1234, []⟩) := by decide
theorem test_registry_pdcap_reserved :
    regDecode 0x46 [0x00, 0x01, 0x01, 0x0F, 0x02, 0x03] = some (.pdcap [⟨0, 1, 1⟩, ⟨15, 2, 3⟩]) := by decide
theorem test_registry_pdcap_partial : regDecode 0x46 [0x04, 0x01] = some (.pdcap []) := by decide

/-- B8, P1b and the order of 60_exceptions.md R158: what is no instruction, by name. -/
theorem test_reject_unknown : decode [0x53, 0x01, 0x07, 0x00, 0x00, 0x63, 0x42] = .error .unknownCode := by decide
theorem test_reject_malformed : decode [0x53, 0x01, 0x09, 0x00, 0x00, 0x69, 0x00, 0x00, 0x3A] = .error .malformedPayload := by
  decide
theorem test_reject_checksum : decode [0x53, 0x01, 0x07, 0x00, 0x00, 0x60, 0x9F] = .error .checksum := by decide
theorem test_reject_mode : decode [0x53, 0x01, 0x07, 0x00, 0x02, 0x60, 0x43] = .error .unsupportedMode := by decide
theorem test_reject_som : decode [0x54, 0x01, 0x07, 0x00, 0x00, 0x60, 0x44] = .error .badSom := by decide
theorem test_reject_length : decode [0x53, 0x01, 0x08, 0x00, 0x00, 0x60, 0x44] = .error .length := by decide
theorem test_reject_short : decode [0x53] = .error .length := by decide

/-- B7: a whole reply frame from the encoder. -/
theorem test_encode_pdid :
    encode ⟨true, 0x00⟩ (.pdid 1 ⟨0x123456, 1, 2, 0xDEADBEEF, [0x31, 0x2E, 0x30]⟩) =
      .ok [0x53, 0x81, 0x13, 0x00, 0x00, 0x45, 0x12, 0x34, 0x56, 0x01, 0x02, 0xDE, 0xAD, 0xBE, 0xEF, 0x31, 0x2E, 0x30, 0x6E] := by
  decide

/- ## The table's words (log 9) -/

theorem test_table_word_poll : decodeTableWord 8 0x60 = some (.poll 0) := by decide
theorem test_table_word_led : decodeTableWord 8 0x69 = some (.led 0 ⟨0, 0, 0, 0, 0, 0, 0, 0, 0, 0, 0, 0, 0, 0⟩) := by decide
theorem test_table_word_unregistered : decodeTableWord 8 0x63 = none := by decide

/-- The very next step runs the word: CAP to address 0 makes its session Initialized. -/
theorem test_fetch_word_cap : (nx (step (State.reset.withFetchWord 8 0x62))).session 0 = some ⟨0, true, []⟩ := by decide

/- ## One step each: B6, P1 to P7 -/

/-- P1. -/
theorem test_step_poll : (nx (step (rxState pollFrame))).tx = [0x53, 0x01, 0x07, 0x00, 0x00, 0x40, 0x65] := by decide
/-- P2 step 5: the queued RAW leaves, with the CTRL byte of the POLL. -/
theorem test_exec_poll_queued :
    (nx (step { sess1 true [.raw ⟨0, 1, 26, [0xA5, 0x5A, 0xC3, 0x40]⟩] with
      rx := [0x53, 0x01, 0x07, 0x00, 0x01, 0x60, 0x44] })).tx =
      [0x53, 0x81, 0x0F, 0x00, 0x01, 0x50, 0x00, 0x01, 0x1A, 0x00, 0xA5, 0x5A, 0xC3, 0x40, 0xAF] := by decide
/-- B6: ID keeps the queue and clears `init`. -/
theorem test_exec_id : (nx (exec (.id 1) (sess1 true [.ack]))).session 1 = some ⟨1, false, [.ack]⟩ := by decide
/-- P2 step 2: a handler given as data answers ID with PDID, bit 7 set in an Uninitialized session. -/
theorem test_exec_id_handler :
    (nx (exec (.id 1) ((sess1 true []).setHandler 0x61
      (.given [.send .own (.pdid ⟨0x123456, 1, 2, 0xDEADBEEF, [0x31, 0x2E, 0x30]⟩)])))).tx =
      [0x53, 0x81, 0x13, 0x00, 0x00, 0x45, 0x12, 0x34, 0x56, 0x01, 0x02, 0xDE, 0xAD, 0xBE, 0xEF, 0x31, 0x2E, 0x30, 0x6E] := by
  decide
/-- B6: CAP makes a fresh session Initialized. -/
theorem test_exec_cap : (nx (exec (.cap 1) .reset)).session 1 = some ⟨1, true, []⟩ := by decide
/-- 43_engine.md R136's worked example. -/
theorem test_exec_lstat :
    (nx (exec (.lstat 1) (State.reset.setHandler 0x64 (.given [.send .own (.lstatr ⟨0, 0⟩)])))).tx =
      [0x53, 0x81, 0x09, 0x00, 0x00, 0x48, 0x00, 0x00, 0xDB] := by decide
/-- B6: LED, BUZ and an inbound ACK change no session. -/
theorem test_exec_led : (nx (exec (.led 1 ledB5) (sess1 true []))).session 1 = some ⟨1, true, []⟩ := by decide
theorem test_exec_buz : (nx (exec (.buz 1) (sess1 true []))).tx = [] := by decide
/-- P7 step 2: an overheard ACK creates the session. -/
theorem test_step_ack :
    (nx (step (rxState [0x53, 0x81, 0x07, 0x00, 0x00, 0x40, 0xE5]))).session 1 = some ⟨1, false, []⟩ := by decide
/-- 42_session.md R119, for the other reply variants: the session is created. -/
theorem test_exec_pdid : (nx (exec (.pdid 2 ⟨1, 2, 3, 4, []⟩) .reset)).session 2 = some ⟨2, false, []⟩ := by decide
theorem test_exec_pdcap : (nx (exec (.pdcap 2 []) .reset)).session 2 = some ⟨2, false, []⟩ := by decide
theorem test_exec_raw : (nx (exec (.raw 2 ⟨0, 0, 0, []⟩) .reset)).session 2 = some ⟨2, false, []⟩ := by decide
theorem test_exec_lstatr : (nx (exec (.lstatr 127 ⟨0, 0⟩) .reset)).session 127 = some ⟨127, false, []⟩ := by decide

/-- P3, iteration 5: an unknown code latches CTRL and makes no session. -/
theorem test_step_unknown :
    (nx (step (rxState [0x53, 0x01, 0x07, 0x00, 0x00, 0x63, 0x42]))).ctrlWritten = true ∧
      (nx (step (rxState [0x53, 0x01, 0x07, 0x00, 0x00, 0x63, 0x42]))).session 1 = none := by decide
/-- P1b: the invalid frame leaves `LAST_CTRL` unwritten. -/
theorem test_step_invalid :
    (nx (step (rxState [0x53, 0x01, 0x07, 0x00, 0x00, 0x60, 0x9F]))).ctrlWritten = false := by decide
/-- P6 (c), iteration 1: a false SOM swallows LEN bytes. -/
theorem test_step_false_som :
    (nx (step (rxState ([0x53, 0x53, 0x09, 0x00] ++ pollFrame ++ pollFrame)))).rx = [0x60, 0x45] ++ pollFrame := by decide
/-- P4 step 3: a frame carries the CTRL byte received for another session. -/
theorem test_send_global_ctrl :
    (nx (step { sess1 true [] with lastCtrl := 0x09, agenda := [.send 1 (.lstatr ⟨1, 0⟩)] })).tx =
      [0x53, 0x81, 0x09, 0x00, 0x09, 0x48, 0x01, 0x00, 0xD1] := by decide
/-- P4 step 4: no session, an explicit error to the host. -/
theorem test_send_absent :
    (nx (step { State.reset with agenda := [.send 3 .ack] })).returns = [⟨.host, .sessionNotFound 3⟩] := by decide
/-- P4 step 5: bit 7 of an inbound ADDR is not examined. -/
theorem test_step_bit7 :
    (nx (step (rxState [0x53, 0x85, 0x07, 0x00, 0x00, 0x60, 0xC1]))).tx = [0x53, 0x05, 0x07, 0x00, 0x00, 0x40, 0x61] := by decide
/-- B6's table of `out_addr` at device address 0x7F. -/
theorem test_out_addr :
    outAddr ⟨0x7F, false, []⟩ .ack = 0x7F ∧ outAddr ⟨0x7F, true, []⟩ .ack = 0xFF ∧ outAddr ⟨0x7F, false, []⟩ (.lstatr ⟨0, 0⟩) = 0xFF ∧
      outAddr ⟨0x7F, true, []⟩ .poll = 0x7F := by decide

/-- P1's end state, as R181 observes it. -/
theorem test_observed_poll :
    (nx (step (rxState pollFrame))).observed.tx = [0x53, 0x01, 0x07, 0x00, 0x00, 0x40, 0x65] ∧
      (nx (step (rxState pollFrame))).observed.lastCtrl = some 0x00 ∧ State.reset.observed.lastCtrl = none := by decide
/-- R181: a pending removal is no bar to quiescence, a pending call of the host is one. -/
theorem test_quiescent_pending_removal : Quiescent { State.reset with agenda := [.txTake 7] } := ⟨rfl, by decide⟩
theorem test_not_quiescent_pending_call : ¬ Quiescent { State.reset with agenda := [.txTake 7, .send 1 .ack] } :=
  fun h => absurd (h.2 (.send 1 .ack) (by decide)) (by decide)

/- ## Witnesses: the hypotheses of each statement, met together -/

theorem reset_meets : Invariant State.reset :=
  ⟨fun a se h => by simp [State.session_reset] at h, by decide, fun a h => by simp [State.session_reset] at h⟩

theorem sess1_session (init : Bool) (q : List Message) (a : Addr) :
    (sess1 init q).session a = if 1 = a then some ⟨1, init, q⟩ else none := by
  rw [← State.session_reset a]
  exact State.session_setSession ..

theorem sess1_meets (init : Bool) (q : List Message) : Invariant (sess1 init q) where
  addr_eq a se h := by
    rw [sess1_session] at h
    split at h
    · cases h; assumption
    · cases h
  ctrl_ok := (by decide : (0x00 : Byte) &&& Param.ctrlReject = 0)
  written _ _ := rfl

theorem pdidOf_length (n : Nat) : (payload (pdidOf n)).length = 9 + n := by simp [pdidOf, payload_length]

theorem oversized : 0xFFF8 < (payload (pdidOf 0xFFF0)).length := by rw [pdidOf_length]; decide

theorem fitting : (payload (pdidOf 0xFFEF)).length ≤ 0xFFF8 := by rw [pdidOf_length]

theorem witness_ChecksumIsNegatedByteSum :
    ((pollFrame.map BitVec.toNat).sum % 256 = 0) ∧ (List.replicate 65534 (0xFF : Byte)).length ≤ 65534 :=
  ⟨by decide, by rw [List.length_replicate]⟩
theorem witness_EncodeLaysOutTheFrame : ([] : List Byte).length ≤ 0xFFF8 ∧ (List.replicate 0xFFF8 (0 : Byte)).length ≤ 0xFFF8 :=
  ⟨by decide, by rw [List.length_replicate]⟩
theorem witness_EncodeRefusesOversizedData :
    0xFFF8 < (List.replicate 0xFFF9 (0 : Byte)).length ∧ (sess1 true []).session 1 = some ⟨1, true, []⟩ ∧
      0xFFF8 < (payload (pdidOf 0xFFF0)).length :=
  ⟨by rw [List.length_replicate]; decide, by decide, oversized⟩
theorem witness_ValidityIsFourConditions : 7 ≤ pollFrame.length ∧ (decodeFrame pollFrame).isValid = true := by decide
theorem witness_ShortBufferIsInvalid : ([] : List Byte).length < 7 ∧ ([0x53, 0x01, 0x06, 0x00, 0xAA, 0xBB] : List Byte).length < 7 := by
  decide
theorem witness_FrameFieldsAreTheBytesInOrder : 7 ≤ ([0x53, 0x01, 0x07, 0x00, 0x00, 0x60, 0x46] : List Byte).length := by decide
theorem witness_DecodeOfEncodedFrame :
    (0xF9 : Byte) &&& 0x06 = 0 ∧ (List.replicate 0xFFF8 (0 : Byte)).length ≤ 0xFFF8 := ⟨by decide, by rw [List.length_replicate]⟩
theorem witness_OneByteCorruptionIsDetected :
    (decodeFrame pollFrame).isValid = true ∧ pollFrame[0]? = some 0x53 ∧ pollFrame[6]? = some 0x45 ∧ (0x54 : Byte) ≠ 0x53 ∧
      (0x9F : Byte) ≠ 0x45 := by decide
theorem witness_ValidFrameHasOneSpelling :
    (decodeFrame [0x53, 0x81, 0x09, 0x00, 0x00, 0x48, 0x00, 0x00, 0xDB]).isValid = true := by decide
theorem witness_RegistryDecodesExactly :
    (0x63 : Byte) ∉ registeredCodes ∧ (List.replicate 13 (0 : Byte)).length < 14 ∧
      regDecode 0x69 (List.replicate 14 0) = some (.led ⟨0, 0, 0, 0, 0, 0, 0, 0, 0, 0, 0, 0, 0, 0⟩) := by decide
/-- Each clause of the match: LED, LSTATR, PDCAP, PDID, RAW, and a payload that is empty. -/
theorem witness_PayloadWithoutSurplusIsSpelledBack :
    regDecode 0x69 (ledBytes ledB5) = some (.led ledB5) ∧ (ledBytes ledB5).length = 14 ∧
      regDecode 0x48 [1, 0] = some (.lstatr ⟨1, 0⟩) ∧ regDecode 0x46 [4, 1, 1] = some (.pdcap [⟨4, 1, 1⟩]) ∧
      regDecode 0x45 [0, 0, 1, 0, 0, 0, 0, 0, 2] = some (.pdid ⟨1, 0, 0, 2, []⟩) ∧
      regDecode 0x50 [0, 0, 0, 0] = some (.raw ⟨0, 0, 0, []⟩) ∧ regDecode 0x60 [] = some .poll := by decide
theorem witness_LedPayloadByOffset : (List.replicate 13 (0 : Byte)).length < 14 ∧ State.reset.handler 0x69 = none := by decide
theorem witness_PdidPayloadBigEndian : (List.replicate 8 (0 : Byte)).length < 9 := by decide
theorem witness_PdcapRecordsInOrder : 1 < ([4, 1, 1, 5, 1, 1, 9] : List Byte).length / 3 := by decide
theorem witness_RawPayloadLittleEndianCount : ([0, 1, 0x1A] : List Byte).length < 4 := by decide
theorem witness_LstatrPayloadTwoBytes : ([1] : List Byte).length < 2 := by decide
theorem witness_InstructionRoundTrip :
    Instr.wellFormed (.pdid 1 ⟨0, 0, 0, 0, List.replicate 65519 0⟩) = true ∧ (⟨true, 0xF9⟩ : Header).ctrl &&& 0x06 = 0 :=
  ⟨test_wf_pdid_max, by decide⟩
/-- B4, clause by clause: empty, not SOM, short header, LEN 5, LEN 6. -/
theorem witness_StreamReadFollowsTheProcedure :
    (rxState []).rx = [] ∧ ((rxState [0x00]).rx = [0x00] ∧ (0x00 : Byte) ≠ 0x53) ∧
      ((rxState [0x53, 0x01, 0x07]).rx = [0x53, 0x01, 0x07] ∧ ([0x01, 0x07] : List Byte).length < 3) ∧
      ((rxState [0x53, 0x01, 0x05, 0x00]).rx = [0x53, 0x01, 0x05, 0x00] ∧ (0x05 : Byte).toNat + 256 * (0x00 : Byte).toNat < 6) ∧
      ((rxState [0x53, 0x01, 0x06, 0x00]).rx = [0x53, 0x01, 0x06, 0x00] ∧
        (0x06 : Byte).toNat + 256 * (0x00 : Byte).toNat = 2 + 4 ∧ 2 ≤ 2) ∧
      (rxState (0x00 :: pollFrame)).rx = [0x00, 0x53, 0x01, 0x07, 0x00, 0x00, 0x60, 0x45] := by decide
theorem witness_GetOrCreateMakesAFreshSession :
    State.reset.session 1 = none ∧ (sess1 true [.ack]).session 1 = some ⟨1, true, [.ack]⟩ := by decide
theorem witness_AbsentSessionIsAnExplicitError :
    State.reset.session 3 = none ∧ (sess1 true []).session 1 = some ⟨1, true, []⟩ ∧
      State.session { State.reset with agenda := [.send 3 .ack] } 3 = none ∧
      State.session { State.reset with agenda := [.enqueue 3 .ack] } 3 = none := by decide
theorem witness_OutboundAddressByte : (sess1 false []).session 1 = some ⟨1, false, []⟩ ∧ (payload .ack).length ≤ 0xFFF8 := by decide
theorem witness_SendWritesOneValidFrame :
    State.reset.session 2 = none ∧ (sess1 true []).session 1 = some ⟨1, true, []⟩ ∧ 0xFFF8 < (payload (pdidOf 0xFFF0)).length ∧
      (payload (pdidOf 0xFFEF)).length ≤ 0xFFF8 ∧ Invariant (sess1 true []) ∧ (sess1 true []).lastCtrl = 0x00 :=
  ⟨by decide, by decide, oversized, fitting, sess1_meets .., by decide⟩
theorem witness_EnqueueAppendsAtTheTail : (sess1 true [.ack]).session 1 = some ⟨1, true, [.ack]⟩ := by decide
theorem witness_DispatchTransitionsThenCallsTheHandler :
    setInit 5 true (getOrCreate 5 State.reset) = State.reset.setSession 5 ⟨5, true, []⟩ ∧
      (sess1 false []).session 1 = some ⟨1, false, []⟩ ∧ (sess1 false []).handler 0x62 = none :=
  ⟨by rw [setInit_getOrCreate_eq, sessionOr, State.session_reset]; rfl, by decide, by decide⟩
theorem witness_PollDrainsOneMessageOrAcks :
    State.reset.handler 0x60 = some .pollDefault ∧ (sessionOr State.reset 1).q = [] ∧
      (sess1 true [.ack]).handler 0x60 = some .pollDefault ∧ (sess1 true [.ack]).session 1 = some ⟨1, true, [.ack]⟩ ∧
      (payload .ack).length ≤ 0xFFF8 ∧ (sess1 true [pdidOf 0xFFF0]).session 1 = some ⟨1, true, [pdidOf 0xFFF0]⟩ ∧
      0xFFF8 < (payload (pdidOf 0xFFF0)).length :=
  ⟨by decide, by decide, by decide, by decide, by decide, by rw [sess1_session]; rfl, oversized⟩
theorem witness_IdReceivedUninitializes :
    State.reset.handler 0x61 = none ∧ State.reset.handler 0x60 = some .pollDefault ∧ State.reset.session 1 = none ∧
      (sess1 true []).session 1 = some ⟨1, true, []⟩ ∧ (sess1 true []).handler 0x61 = none ∧
      State.rx { sess1 true [] with rx := [0x53, 0x01, 0x07, 0x00, 0x00, 0x61, 0x44] } =
        [0x53, 0x01, 0x07, 0x00, 0x00, 0x61, 0x44] := by decide
theorem witness_CapReceivedInitializes :
    State.reset.handler 0x62 = none ∧ State.reset.handler 0x60 = some .pollDefault ∧ State.reset.session 1 = none := by decide
theorem witness_LstatLedBuzReceived :
    State.reset.handler 0x64 = none ∧ State.reset.handler 0x69 = none ∧ State.reset.handler 0x6A = none ∧
      (sess1 true []).session 1 = some ⟨1, true, []⟩ ∧
      (rxState [0x53, 0x01, 0x07, 0x00, 0x00, 0x64, 0x41]).rx = [0x53, 0x01, 0x07, 0x00, 0x00, 0x64, 0x41] := by decide
theorem witness_ReplyVariantsReceived :
    State.reset.handler 0x40 = none ∧ State.reset.handler 0x45 = none ∧ State.reset.handler 0x46 = none ∧
      State.reset.handler 0x50 = none ∧ State.reset.handler 0x48 = none := by decide
theorem witness_NoHandlerMeansNoReply : State.reset.handler (codeOf (Instr.cap 1).message) = none := by decide
theorem witness_ReceivingFrameForEveryHandler :
    ∀ n, State.reset.handler (codeOf (Instr.poll 1).message) ≠ some (.host n) := by
  intro n
  rw [State.handler_reset]
  simp [Instr.message, codeOf, variant, Variant.row]
theorem witness_OnlyPollDefaultTakesFromAQueue :
    (sess1 true [.ack]).handler (codeOf (Instr.id 1).message) ≠ some .pollDefault ∧
      ((sess1 true []).setHandler 0x64 (.host 7)).handler (codeOf (Instr.lstat 1).message) ≠ some .pollDefault ∧
      (sess1 true [.ack]).session 1 = some ⟨1, true, [.ack]⟩ := by decide
theorem witness_PollsSendTheQueueInOrder :
    (sess1 true [.ack, .lstatr ⟨1, 0⟩]).handler 0x60 = some .pollDefault ∧
      (sess1 true [.ack, .lstatr ⟨1, 0⟩]).session 1 = some ⟨1, true, [.ack, .lstatr ⟨1, 0⟩]⟩ ∧
      ∀ m ∈ [Message.ack, .lstatr ⟨1, 0⟩], (payload m).length ≤ 0xFFF8 := by decide
theorem witness_ActionErrorsDoNotStopTheRest :
    (State.reset.setHandler 0x64 (.host 7)).handler (codeOf (Instr.lstat 1).message) = some (.host 7) ∧
      (State.reset.setHandler 0x62 (.given [.send .own .ack])).handler (codeOf (Instr.cap 1).message) =
        some (.given [.send .own .ack]) ∧
      State.reset.session 3 = none ∧ (sess1 true []).session 1 = some ⟨1, true, []⟩ ∧ 0xFFF8 < (payload (pdidOf 0xFFF0)).length :=
  ⟨by decide, by decide, by decide, by decide, oversized⟩
theorem witness_GivenHandlerRepliesToLstat :
    (State.reset.setHandler 0x64 (.given [.send .own (.lstatr ⟨0, 0⟩)])).handler 0x64 =
        some (.given [.send .own (.lstatr ⟨0, 0⟩)]) ∧
      (sessionOr (State.reset.setHandler 0x64 (.given [.send .own (.lstatr ⟨0, 0⟩)])) 1).addr = 1 := by decide
/-- A handler that enqueues, sends the ACK, and sends again; `PollDefault` at CAP and ID with an empty queue and with an ACK. -/
theorem witness_TransitionPrecedesTheHandlersReply :
    (State.reset.setHandler 0x62 (.given [.enqueue .own .buz, .send .own .ack, .send .own .ack])).handler 0x62 =
        some (.given [.enqueue .own .buz, .send .own .ack, .send .own .ack]) ∧
      handlerActions (.given [.enqueue .own .buz, .send .own .ack, .send .own .ack]) ⟨1, true, []⟩ .cap =
        [.enqueue 1 .buz] ++ .send 1 .ack :: [.send 1 .ack] ∧
      (State.reset.setHandler 0x61 (.given [.send .own .ack])).handler 0x61 = some (.given [.send .own .ack]) ∧
      handlerActions (.given [.send .own .ack]) ⟨1, false, []⟩ .id = [] ++ .send 1 .ack :: [] ∧
      sessionOr (State.reset.setHandler 0x61 (.given [.send .own .ack])) 1 = ⟨1, false, []⟩ ∧
      sessionOr (State.reset.setHandler 0x62 (.given [.enqueue .own .buz, .send .own .ack, .send .own .ack])) 1 =
        ⟨1, false, []⟩ ∧
      ((sess1 true [.ack, .buz]).setHandler 0x62 .pollDefault).handler 0x62 = some .pollDefault ∧
      sessionOr ((sess1 true [.ack, .buz]).setHandler 0x62 .pollDefault) 1 = ⟨1, true, [.ack, .buz]⟩ ∧
      (State.reset.setHandler 0x61 .pollDefault).handler 0x61 = some .pollDefault ∧
      sessionOr (State.reset.setHandler 0x61 .pollDefault) 1 = ⟨1, false, []⟩ := by decide
/-- The two states differ in session 2. -/
theorem witness_OtherSessionsDoNotInterfere :
    (sess1 true []).session 1 = ((sess1 true []).setSession 2 ⟨2, true, [.ack]⟩).session 1 ∧
      (sess1 true []).session 2 ≠ ((sess1 true []).setSession 2 ⟨2, true, [.ack]⟩).session 2 ∧
      (sess1 true []).handler (codeOf (Instr.poll 1).message) = some .pollDefault ∧
      (sess1 true []).handler (codeOf (Instr.cap 1).message) = none := by decide
theorem witness_IterateFollowsTheLoopBody :
    (rxState []).rx = [] ∧ (readFromStream (rxState [0x00])).1 = none ∧
      (readFromStream (rxState [0x53, 0x01, 0x06, 0x00, 0xAA, 0xBB])).1.map Frame.isValid = some false ∧
      (readFromStream (rxState pollFrame)).1.map Frame.isValid = some true ∧ regDecode 0x60 [] = some .poll ∧
      (readFromStream (rxState [0x53, 0x01, 0x07, 0x00, 0x00, 0x63, 0x42])).1.map Frame.isValid = some true ∧
      regDecode 0x63 [] = none := by decide
theorem witness_StepRunsTheDecodedInstruction :
    (rxState (pollFrame ++ [0x99])).rx = pollFrame ++ [0x99] ∧ decode pollFrame = .ok (.poll 1) ∧
      (rxState (pollFrame ++ [0x99])).agenda = [] ∧ (State.reset.withFetchWord 8 0x60).agenda = [.iterate] := by decide
/-- Not SOM; LEN 5; LEN 6; a wrong checksum; a body cut short. -/
theorem witness_FramingErrorIsDropped :
    (rxState [0x52]).agenda = [] ∧ (0x52 : Byte) ≠ 0x53 ∧ (0x05 : Byte).toNat + 256 * (0x00 : Byte).toNat < 6 ∧
      (0x06 : Byte).toNat + 256 * (0x00 : Byte).toNat = 2 + 4 ∧
      (decodeFrame (0x53 :: 0x01 :: 0x06 :: 0x00 :: ([0xAA, 0xBB, 0xCC] : List Byte).take 2)).isValid = false ∧
      (decodeFrame (0x53 :: 0x01 :: 0x07 :: 0x00 :: ([0x00, 0x60, 0x46] : List Byte).take 3)).isValid = false ∧
      (decodeFrame (0x53 :: 0x01 :: 0x07 :: 0x00 :: ([0x00] : List Byte).take 3)).isValid = false := by decide
theorem witness_UnknownCodeIsDropped :
    (rxState [0x53, 0x01, 0x07, 0x00, 0x00, 0x63, 0x42]).agenda = [] ∧
      (decodeFrame [0x53, 0x01, 0x07, 0x00, 0x00, 0x63, 0x42]).isValid = true ∧
      (decodeFrame [0x53, 0x01, 0x07, 0x00, 0x00, 0x63, 0x42]).cmd ∉ registeredCodes := by decide
/-- LED with 2 data bytes (B8), LED with 13, PDID with 8, RAW with 3, LSTATR with 1; the checksums are worked out by R70. -/
theorem witness_MalformedPayloadIsDropped :
    (decodeFrame [0x53, 0x01, 0x09, 0x00, 0x00, 0x69, 0x00, 0x00, 0x3A]).isValid = true ∧
      (decodeFrame [0x53, 0x01, 0x14, 0x00, 0x00, 0x69, 0, 0, 0, 0, 0, 0, 0, 0, 0, 0, 0, 0, 0, 0x2F]).isValid = true ∧
      (decodeFrame [0x53, 0x81, 0x0F, 0x00, 0x00, 0x45, 0, 0, 0, 0, 0, 0, 0, 0, 0xD8]).isValid = true ∧
      (decodeFrame [0x53, 0x81, 0x0A, 0x00, 0x00, 0x50, 0, 0, 0, 0xD2]).isValid = true ∧
      (decodeFrame [0x53, 0x81, 0x08, 0x00, 0x00, 0x48, 0, 0xDC]).isValid = true := by decide
/-- P5 step 1, the shortest header and the body one byte short. -/
theorem witness_SplitFrameIsLost :
    (rxState [0x53]).rx = 0x53 :: [] ∧ (rxState [0x53]).agenda = [] ∧ ([] : List Byte).length < 3 ∧
      6 ≤ (0x07 : Byte).toNat + 256 * (0x00 : Byte).toNat ∧
      ([0x00, 0x60] : List Byte).length + 4 < (0x07 : Byte).toNat + 256 * (0x00 : Byte).toNat := by decide
theorem witness_IdleHostAndEnvironmentSteps :
    State.reset.agenda = [] ∧ State.reset.rx = [] ∧ (sess1 true []).session 1 = some ⟨1, true, []⟩ ∧
      (payload .ack).length ≤ 0xFFF8 ∧ State.agenda { State.reset with agenda := [.rxAppend pollFrame] } = [.rxAppend pollFrame] ∧
      State.agenda { State.reset with agenda := [.txTake 7] } = [.txTake 7] ∧
      State.agenda { sess1 true [] with agenda := [.send 1 .ack] } = [.send 1 .ack] ∧
      State.agenda { sess1 true [] with agenda := [.enqueue 1 .ack] } = [.enqueue 1 .ack] := by decide
theorem witness_RegisterHandlerReplacesTheEntry :
    State.agenda { State.reset with agenda := [.register 0x60 (.host 1)] } = [.register 0x60 (.host 1)] := by decide
theorem witness_IterationConsumesBytes : (rxState [0x00]).rx ≠ [] := by decide
theorem witness_FiniteInputReachesQuiescence : (rxState pollFrame).agenda = [] := by decide
theorem witness_StepKeepsTheInvariant :
    Invariant State.reset ∧ Invariant (sess1 true [.ack]) ∧ step State.reset = .next State.reset := ⟨reset_meets, sess1_meets .., rfl⟩
/-- ID to an Initialized session, and CAP to a fresh one made by a POLL. -/
theorem witness_InitIsDrivenByIdAndCapAlone :
    (sess1 true []).session 1 = some ⟨1, true, []⟩ ∧
      (nx (step { sess1 true [] with rx := [0x53, 0x01, 0x07, 0x00, 0x00, 0x61, 0x44] })).session 1 = some ⟨1, false, []⟩ ∧
      (sess1 false []).session 1 = some ⟨1, false, []⟩ ∧
      (nx (step { sess1 false [] with rx := [0x53, 0x01, 0x07, 0x00, 0x00, 0x62, 0x43] })).session 1 = some ⟨1, true, []⟩ := by
  decide
theorem witness_SessionsPersistAndComeFromFrames :
    (∃ t, step (rxState pollFrame) = .next t ∧ t.session 1 ≠ none) ∧ (rxState pollFrame).session 1 = none :=
  ⟨⟨_, rfl, by decide⟩, by decide⟩
theorem witness_TxGrowsByWholeValidFrames :
    (rxState pollFrame).lastCtrl &&& 0x06 = 0 ∧ (∃ t, step (rxState pollFrame) = .next t ∧ t.tx ≠ []) ∧
      ∀ n es, (rxState pollFrame).agenda ≠ .txTake n :: es :=
  ⟨by decide, ⟨_, rfl, by decide⟩, fun _ _ h => by cases h⟩
/-- No frame; an invalid frame (P1b); a valid frame with an unknown code, by an `iterate` of the agenda. -/
theorem witness_DropsArePrecise :
    iterationStart (rxState [0x00]) = some (rxState [0x00]) ∧ executes (rxState [0x00]) = none ∧
      (readFromStream (rxState [0x00])).1 = none ∧
      executes (rxState [0x53, 0x01, 0x07, 0x00, 0x00, 0x60, 0x9F]) = none ∧
      (readFromStream (rxState [0x53, 0x01, 0x07, 0x00, 0x00, 0x60, 0x9F])).1.map Frame.isValid = some false ∧
      (iterationStart { rxState [0x53, 0x01, 0x07, 0x00, 0x00, 0x63, 0x42] with agenda := [.iterate] }).isSome = true ∧
      executes { rxState [0x53, 0x01, 0x07, 0x00, 0x00, 0x63, 0x42] with agenda := [.iterate] } = none ∧
      (readFromStream (rxState [0x53, 0x01, 0x07, 0x00, 0x00, 0x63, 0x42])).1.map Frame.isValid = some true :=
  ⟨rfl, by decide, by decide, by decide, by decide, by decide, by decide, by decide⟩

end Sys2Proof.Tests
end

section
/-! PROOFS. The transport's read (20_memory.md section 2). -/

namespace Sys2Proof.Machine

variable (n : Nat) (s : State)

/-- The result of R32, with its `k` capped at the bytes that are there. -/
theorem rxRead_fst_eq_take_min : (rxRead n s).1 = s.rx.take (min n s.rx.length) :=
  List.take_eq_take_min

/-- The frame of R32: RX loses the bytes returned, and every other field is the one before. -/
theorem rxRead_snd_eq_drop_min : (rxRead n s).2 = { s with rx := s.rx.drop (min n s.rx.length) } :=
  congrArg (fun r => { s with rx := r }) List.drop_eq_drop_min

theorem rxRead_fst_length : (rxRead n s).1.length = min n s.rx.length :=
  List.length_take

/-- A read is destructive and loses nothing: what it returns, followed by what it leaves, is RX as it was. -/
theorem rxRead_fst_append_rx : (rxRead n s).1 ++ (rxRead n s).2.rx = s.rx :=
  List.take_append_drop n s.rx

@[simp] theorem rxRead_zero : rxRead 0 s = ([], s) := rfl

/-- Settles O22: the parts of R32, each a law of `rxRead`. -/
theorem rxReadTakesTheHead : Obligations.RxReadTakesTheHead := by
  intro n s
  exact ⟨rxRead_fst_eq_take_min n s, rxRead_fst_length n s, rxRead_snd_eq_drop_min n s, rxRead_fst_append_rx n s,
    rxRead_zero s⟩

end Sys2Proof.Machine
end

section
/-! PROOFS. The registry's rows and its selection by the code (30_encoding.md R58). -/

namespace Sys2Proof.Machine

/-- The list of registered codes is the code column of the table. -/
theorem registry_codes : registry.map (fun v => v.row.code) = registeredCodes := rfl

theorem registeredCodes_nodup : registeredCodes.Nodup := by decide

/-- The selection finds no entry exactly for a code outside the table's code column. -/
theorem lookup_eq_none (c : Byte) : lookup c = none ↔ c ∉ registeredCodes := by
  simp [lookup, ← registry_codes, List.find?_eq_none]

/-- Settles O10: a Message's row by its variant, the code column, and the two laws of the selection. -/
theorem codeMapHasElevenRows : Obligations.CodeMapHasElevenRows := by
  refine ⟨fun m => ?_, registry_codes, registeredCodes_nodup, rfl, lookup_eq_none, lookup_codeOf⟩
  rw [payload_length]
  cases m <;> rfl

end Sys2Proof.Machine
end

section
/-! PROOFS. The frame codec: the checksum (40_frame_codec.md R70), `encode` (R71), `is_valid` (R75) and
`read_from_stream` (R78). -/

namespace Sys2Proof.Machine

/-- The model's own sum of a sequence is the library's, of the bytes' values. -/
theorem sum_map_toNat (s : List Byte) : (s.map BitVec.toNat).sum = byteSum s := by
  induction s with
  | nil => rfl
  | cons b s ih => rw [List.map_cons, List.sum_cons, ih, byteSum_cons]

theorem byteSum_le (s : List Byte) : byteSum s ≤ 255 * s.length := by
  induction s with
  | nil => simp
  | cons b s ih =>
    have hb := b.isLt
    rw [byteSum_cons, List.length_cons]
    omega

/-- The law of R70: a sequence and its checksum sum to 0. -/
theorem byteSum_add_cksum (s : List Byte) : (byteSum s + (cksum s).toNat) % 256 = 0 :=
  (eq_cksum_iff s (cksum s)).1 rfl

theorem cksum_eq_zero {s : List Byte} (h : byteSum s % 256 = 0) : cksum s = 0 :=
  ((eq_cksum_iff s 0).2 h).symm

/-- Settles O1: the value is the definition's, the law makes 0 the checksum of a sum of 0, and a byte adds at most 255. -/
theorem checksumIsNegatedByteSum : Obligations.ChecksumIsNegatedByteSum := by
  refine ⟨fun s => ?_, rfl, by decide⟩
  rw [sum_map_toNat]
  refine ⟨cksum_toNat s, byteSum_add_cksum s, cksum_eq_zero, fun hs => ?_⟩
  calc byteSum s ≤ 255 * s.length := byteSum_le s
    _ ≤ 255 * 65534 := Nat.mul_le_mul_left 255 hs
    _ < 2 ^ 24 := by decide

theorem getElem?_eq_some_byteAt {b : List Byte} {i : Nat} (h : i < b.length) : b[i]? = some (byteAt b i) := by
  rw [byteAt, List.getD_eq_getElem b 0 h, List.getElem?_eq_getElem h]

theorem getLast?_eq_some_byteAt {b : List Byte} (h : 0 < b.length) : b.getLast? = some (byteAt b (b.length - 1)) := by
  rw [List.getLast?_eq_getElem?, getElem?_eq_some_byteAt (Nat.sub_lt h Nat.one_pos)]

/-- The POLL frame of R75's worked example. -/
theorem decodeFrame_poll :
    decodeFrame [0x53, 0x01, 0x07, 0x00, 0x00, 0x60, 0x45] = ⟨0x53, 0x01, 7, 0x00, 0x60, [], 0x45, true⟩ := by decide

/-- Settles O4: in a buffer of at least 7 bytes each byte that V1 to V4 read is there, and V4's LEN is the two bytes' number. -/
theorem validityIsFourConditions : Obligations.ValidityIsFourConditions := by
  refine ⟨fun b h7 => ?_, decodeFrame_poll, by decide⟩
  have hbytes : ∀ i < 7, b[i]? = some (byteAt b i) := fun i hi => getElem?_eq_some_byteAt (Nat.lt_of_lt_of_le hi h7)
  rw [decodeFrame, validFlag_iff, le16_toNat, hbytes 0 (by decide), hbytes 2 (by decide), hbytes 3 (by decide),
    hbytes 4 (by decide), getLast?_eq_some_byteAt (by omega), List.dropLast_eq_take]
  simp [h7, Param.som, Param.ctrlReject, Param.ctrlCrc, Param.ctrlSc]

theorem readFromStream_of_assemble_error {s s1 : State} {e : NoFrame} (h : assemble s = (.error e, s1)) :
    readFromStream s = (none, s1) := by
  simp only [readFromStream, h]

theorem readFromStream_of_assemble_ok {s s1 : State} {b : List Byte} (h : assemble s = (.ok b, s1)) :
    readFromStream s = (some (decodeFrame b), s1) := by
  simp only [readFromStream, h]

theorem readFromStream_notSom {s : State} {b : Byte} {r : List Byte} (h : s.rx = b :: r) (hb : b ≠ Param.som) :
    readFromStream s = (none, { s with rx := r }) :=
  readFromStream_of_assemble_error (assemble_notSom h hb)

/-- A whole valid frame at the head of RX is read, and no byte after it. -/
theorem readFromStream_valid {s : State} {b rest : List Byte} (h : s.rx = b ++ rest) (hv : validFlag b = true) :
    readFromStream s = (some (decodeFrame b), { s with rx := rest }) :=
  readFromStream_of_assemble_ok (assemble_valid h hv)

/-- The last case of R78, with LEN as the header's four bytes and the `n` bytes of the body. -/
theorem readFromStream_body {s : State} {a l u : Byte} {r : List Byte} {n : Nat}
    (h : s.rx = Param.som :: a :: l :: u :: r) (hl : (le16 l u).toNat = n + 4) (hn : 2 ≤ n) :
    readFromStream s = (some (decodeFrame (Param.som :: a :: l :: u :: r.take n)), { s with rx := r.drop n }) := by
  have hbody := assemble_body h (by omega)
  rw [hl, Nat.add_sub_cancel] at hbody
  exact readFromStream_of_assemble_ok hbody

/-- Settles O23: each case is the case of `assemble` with its buffer decoded; the example drops the byte before the frame and
then reads the frame. -/
theorem streamReadFollowsTheProcedure : Obligations.StreamReadFollowsTheProcedure := by
  refine ⟨fun s h => ?empty, fun s b r h hb => ?notSom, fun s r h hr => ?shortHeader, fun s a l u r h hl => ?shortLength,
    fun s a l u r n h hl hn => ?body, fun s h => ?workedExample⟩
  case empty => exact readFromStream_of_assemble_error (assemble_nil h)
  case notSom => exact readFromStream_notSom h hb
  case shortHeader => exact readFromStream_of_assemble_error (assemble_shortHeader h hr)
  case shortLength =>
    rw [← le16_toNat] at hl
    exact readFromStream_of_assemble_error (assemble_shortLength h hl)
  case body =>
    rw [← le16_toNat] at hl
    exact readFromStream_body h hl hn
  case workedExample =>
    have hfirst := readFromStream_notSom h (by decide)
    refine ⟨hfirst, ?_⟩
    rw [hfirst, ← decodeFrame_poll]
    exact readFromStream_valid rfl (congrArg Frame.isValid decodeFrame_poll)

/-- For data that fits, `encode` answers the frame of R71. -/
theorem encodeFrame_eq_wireFrame (addr ctrl cmd : Byte) {data : List Byte} (h : data.length ≤ Param.maxData) :
    encodeFrame addr ctrl cmd data = .ok (wireFrame addr ctrl cmd data) := by
  rw [encodeFrame_ok addr ctrl cmd h, frameHead_eq addr ctrl cmd h, wireFrame]

theorem wireFrame_length (addr ctrl cmd : Byte) (data : List Byte) :
    (wireFrame addr ctrl cmd data).length = 7 + data.length := by
  simp only [wireFrame, List.length_append, List.length_cons, List.length_nil]
  omega

/-- Settles O2: the frame is the head with LEN spelled out and its checksum. -/
theorem encodeLaysOutTheFrame : Obligations.EncodeLaysOutTheFrame :=
  ⟨fun addr ctrl cmd data h => ⟨encodeFrame_eq_wireFrame addr ctrl cmd h, wireFrame_length addr ctrl cmd data⟩, by decide⟩

end Sys2Proof.Machine
end

section
/-! PROOFS. The payload codecs of the empty commands, LED, PDCAP and LSTATR (41_messages.md R93 to R98, R101, R103). -/

namespace Sys2Proof.Machine

/-- R92 (a) at a variant's own code. -/
theorem regDecode_short (v : Variant) {d : List Byte} (h : d.length < v.row.fixedPart) : regDecode v.row.code d = none :=
  (regDecode_of_code rfl d).trans (decPayload_short h)

/-- R92 (b) at a variant's own code. -/
theorem regDecode_long (v : Variant) {d : List Byte} (h : v.row.fixedPart ≤ d.length) :
    regDecode v.row.code d = some (readFields v d) :=
  (regDecode_of_code rfl d).trans (decPayload_long h)

/-- Where no handler is registered for the code, only the hardwired transition is left. -/
theorem exec_of_handler_none {i : Instr} {s : State} (h : s.handler (codeOf i.message) = none) :
    exec i s =
      .next (s.setSession i.addr
        { sessionOr s i.addr with init := initAfter i.message (sessionOr s i.addr).init }) := by
  rw [exec_eq, callHandler_none]
  exact h

theorem exec_led_of_handler_none (a : Addr) (p : LedFields) {s : State} (h : s.handler 0x69 = none) :
    exec (.led a p) s = .next (s.setSession a (sessionOr s a)) :=
  exec_of_handler_none (i := .led a p) h

/-- Settles O15: 14 bytes are the fixed part of LED's row, and with no handler the next state does not mention the fields. -/
theorem ledPayloadByOffset : Obligations.LedPayloadByOffset := by
  refine ⟨⟨rfl, rfl⟩, fun d h => regDecode_short .led h, ?fields, fun p => rfl, fun a p p' s h => ?noHandler, by decide⟩
  case fields =>
    intro b0 b1 b2 b3 b4 b5 b6 b7 b8 b9 b10 b11 b12 b13 rest
    exact regDecode_long .led (Nat.le_add_left 14 rest.length)
  case noHandler => rw [exec_led_of_handler_none a p h, exec_led_of_handler_none a p' h]

@[simp] theorem capRecords_length (d : List Byte) : (capRecords d).length = d.length / 3 := by
  induction d using capRecords.induct with
  | case1 f l n rest ih => simp only [capRecords, List.length_cons, ih]; omega
  | case2 | case3 | case4 => simp [capRecords]

/-- The whole records are spelled back, and the trailing partial record is cut off. -/
theorem capRecords_flatMap_capBytes (d : List Byte) :
    (capRecords d).flatMap capBytes = d.take (3 * (d.length / 3)) := by
  induction d using capRecords.induct with
  | case1 f l n rest ih =>
    have hlen : 3 * ((f :: l :: n :: rest).length / 3) = 3 * (rest.length / 3) + 3 := by
      simp only [List.length_cons]; omega
    rw [hlen, capRecords, List.flatMap_cons, ih]
    rfl
  | case2 | case3 | case4 => simp [capRecords]

theorem capRecords_getElem? (d : List Byte) {i : Nat} (h : i < d.length / 3) :
    (capRecords d)[i]? = some ⟨d.getD (3 * i) 0, d.getD (3 * i + 1) 0, d.getD (3 * i + 2) 0⟩ := by
  induction d using capRecords.induct generalizing i with
  | case1 f l n rest ih =>
    cases i with
    | zero => rfl
    | succ i =>
      have hi : i < rest.length / 3 := by simp only [List.length_cons] at h; omega
      rw [capRecords, List.getElem?_cons_succ, ih hi]
      rfl
  | case2 | case3 | case4 => simp at h

theorem regDecode_pdcap (d : List Byte) : regDecode 0x46 d = some (.pdcap (capRecords d)) :=
  regDecode_long .pdcap (Nat.zero_le _)

/-- `encode` of the frame codec answers a frame exactly for data of at most `MAX_DATA` bytes (40_frame_codec.md R72). -/
theorem exists_encodeFrame_ok_iff (addr ctrl cmd : Byte) (data : List Byte) :
    (∃ bs, encodeFrame addr ctrl cmd data = .ok bs) ↔ data.length ≤ Param.maxData := by
  refine ⟨fun ⟨bs, hbs⟩ => Nat.not_lt.1 fun hlt => ?_, fun h => ⟨_, encodeFrame_ok addr ctrl cmd h⟩⟩
  rw [encodeFrame_overflow addr ctrl cmd hlt] at hbs
  cases hbs

theorem pdcap_payload_le_maxData_iff (caps : List Capability) :
    (payload (.pdcap caps)).length ≤ Param.maxData ↔ caps.length ≤ 21842 :=
  (fits_iff (.pdcap caps)).symm.trans decide_eq_true_iff

/-- Settles O17: the records are `capRecords`, whose laws are by its own recursion, three bytes at a time. -/
theorem pdcapRecordsInOrder : Obligations.PdcapRecordsInOrder := by
  refine ⟨fun d => ⟨capRecords d, regDecode_pdcap d, capRecords_length d, fun i => capRecords_getElem? d,
    capRecords_flatMap_capBytes d⟩, fun caps => ⟨?spelling, ?roundTrip, ?fits⟩, fun caps => ⟨rfl, rfl⟩,
    regDecode_pdcap _, regDecode_pdcap _, by decide⟩
  case spelling => exact List.flatMap_def
  case roundTrip => rw [regDecode_pdcap, payload, capRecords_capBytes]
  case fits => exact (exists_encodeFrame_ok_iff _ _ _ _).trans (pdcap_payload_le_maxData_iff caps)

/-- Settles O14: a row with no fixed part decodes any data, and these variants read no field of it. -/
theorem emptyPayloadCommands : Obligations.EmptyPayloadCommands := by
  refine ⟨fun d => ?anyData, by decide, by decide, by decide, by decide, by decide, by decide, by decide, by decide⟩
  case anyData =>
    have hall : 0 ≤ d.length := Nat.zero_le _
    exact ⟨regDecode_long .poll hall, regDecode_long .id hall, regDecode_long .cap hall, regDecode_long .lstat hall,
      regDecode_long .buz hall⟩

/-- Settles O19: 2 bytes are the fixed part of LSTATR's row, and its fields are the first two. -/
theorem lstatrPayloadTwoBytes : Obligations.LstatrPayloadTwoBytes :=
  ⟨fun _ => ⟨rfl, rfl, rfl⟩, fun _ h => regDecode_short .lstatr h,
    fun _ _ rest => regDecode_long .lstatr (Nat.le_add_left 2 rest.length), by decide⟩

end Sys2Proof.Machine
end

section
/-! PROOFS. The ADDR byte of an outbound frame (42_session.md R122). -/

namespace Sys2Proof.Machine

/-- The direction bit is ACK's `init`, and every other variant's own. -/
theorem outDir_eq (init : Bool) (m : Message) : outDir init m = if variant m = .ack then init else dirOf m := by
  cases m with
  | ack => cases init <;> rfl
  | _ => rfl

theorem outAddr_ack (se : Session) : outAddr se .ack = addrByte se.init se.addr :=
  congrArg (addrByte · se.addr) (outDir_eq se.init .ack)

/-- Settles O26: ADDR is its two fields, the direction bit and the address; the frame is the one a present session sends. -/
theorem outboundAddressByte : Obligations.OutboundAddressByte := by
  have haddr : addrByte true 1 = 0x81 := by decide
  refine ⟨fun se m => ?fields, fun a m s se hs hm => ?sent, fun q => ?ackExample, fun init q p => ?pdidExample⟩
  case fields =>
    rw [outAddr, addrByte_toNat, outDir_eq]
    cases m <;> rfl
  case sent => rw [send_present hs hm, messageFrame]
  case ackExample => exact ⟨(outAddr_ack _).trans (by decide : addrByte false 1 = 0x01), (outAddr_ack _).trans haddr⟩
  case pdidExample => exact (congrArg (addrByte · 1) (outDir_eq init (.pdid p))).trans haddr

end Sys2Proof.Machine
end

section
/-! PROOFS. An iteration over a frame that decodes (43_engine.md R130), and the commands received: POLL of an empty queue, ID,
CAP, LSTAT, LED and BUZ (42_session.md R113 to R118). -/

namespace Sys2Proof.Machine

theorem sessionOr_of_present {s : State} {a : Addr} {se : Session} (h : s.session a = some se) : sessionOr s a = se := by
  rw [sessionOr, h, Option.getD_some]

theorem sessionOr_of_absent {s : State} {a : Addr} (h : s.session a = none) : sessionOr s a = ⟨a, false, []⟩ := by
  rw [sessionOr, h, Option.getD_none]

/-- A buffer that decodes is a valid frame that the registry accepts, and the instruction is the registry's answer. -/
theorem decode_eq_ok {b : List Byte} {i : Instr} (h : decode b = .ok i) :
    validFlag b = true ∧ ∃ m, regDecode (decodeFrame b).cmd (decodeFrame b).data = some m ∧
      Instr.ofMessage (deviceAddress (decodeFrame b).addr) m = i := by
  simp only [decode] at h
  split at h
  · cases h
  · rename_i hv
    split at h
    · cases h
    · rename_i m hm
      exact ⟨Bool.eq_true_of_not_eq_false hv, m, hm, Except.ok.inj h⟩

/-- A frame at the head of RX that decodes is read whole, its CTRL byte is latched, and its instruction is executed
(43_engine.md R130, R132). -/
theorem iterate_of_decode {s : State} {b rest : List Byte} {i : Instr} (hrx : s.rx = b ++ rest) (h : decode b = .ok i) :
    iterate s = exec i (State.latch { s with rx := rest } (byteAt b 4)) := by
  obtain ⟨hv, m, hm, hi⟩ := decode_eq_ok h
  have h7 := ((validFlag_iff b).1 hv).1
  have hne : s.rx ≠ [] := by
    rw [hrx]
    exact List.append_ne_nil_of_left_ne_nil (List.ne_nil_of_length_pos (by omega)) rest
  rw [iterate_of_run (fetch_of_message hne (assemble_valid hrx hv) hv hm), hi]
  rfl

/-- An iteration over one frame whose code has no handler: the frame leaves RX, its CTRL byte is latched, and the session
makes the hardwired transition. -/
theorem iterate_of_decode_of_handler_none {s : State} {b : List Byte} {i : Instr} (hrx : s.rx = b)
    (h : decode b = .ok i) (hh : s.handler (codeOf i.message) = none) :
    iterate s = .next
      { s.setSession i.addr { sessionOr s i.addr with init := initAfter i.message (sessionOr s i.addr).init } with
        rx := [], lastCtrl := byteAt b 4, ctrlWritten := true } := by
  rw [iterate_of_decode (hrx.trans (List.append_nil b).symm) h, exec_of_handler_none]
  · rfl
  · exact hh

/-- POLL of an empty queue under the reset handler is answered by an ACK (42_session.md R113). -/
theorem exec_poll_of_queue_nil {a : Addr} {s : State} (hh : s.handler 0x60 = some .pollDefault)
    (hq : (sessionOr s a).q = []) :
    exec (.poll a) s =
      .next { s.setSession a (sessionOr s a) with tx := s.tx ++ messageFrame (sessionOr s a) s.lastCtrl .ack } := by
  have hs := State.session_setSession_self s a (sessionOr s a)
  calc exec (.poll a) s
      = .next (callHandler a .poll (s.setSession a (sessionOr s a))) := exec_eq (.poll a) s
    _ = .next (pollDefault a (s.setSession a (sessionOr s a))) := by rw [callHandler_pollDefault]; exact hh
    _ = .next (send a .ack (s.setSession a (sessionOr s a))).2 := by rw [pollDefault_nil hs hq]
    _ = _ := by rw [send_present hs (Nat.zero_le _)]; rfl

/-- A POLL that follows the write of a session with an empty queue: the direction bit of the ACK is the session's `init`. -/
theorem exec_poll_setSession {a : Addr} {s : State} (b : Bool) (hh : s.handler 0x60 = some .pollDefault) :
    exec (.poll a) (s.setSession a ⟨a, b, []⟩) =
      .next { s.setSession a ⟨a, b, []⟩ with tx := s.tx ++ wireFrame (addrByte b a) s.lastCtrl 0x40 [] } := by
  have hse : sessionOr (s.setSession a ⟨a, b, []⟩) a = ⟨a, b, []⟩ :=
    sessionOr_of_present (State.session_setSession_self ..)
  rw [exec_poll_of_queue_nil, hse, State.setSession_setSession, messageFrame, outAddr_ack]
  · rfl
  · exact hh
  · rw [hse]

theorem exec_id_of_handler_none (a : Addr) {s : State} (h : s.handler 0x61 = none) :
    exec (.id a) s = .next (s.setSession a { sessionOr s a with init := false }) :=
  exec_of_handler_none (i := .id a) h

theorem exec_cap_of_handler_none (a : Addr) {s : State} (h : s.handler 0x62 = none) :
    exec (.cap a) s = .next (s.setSession a { sessionOr s a with init := true }) :=
  exec_of_handler_none (i := .cap a) h

theorem addrByte_false (a : Addr) : addrByte false a = a.setWidth 8 := BitVec.zero_or

/-- Settles O31: the transition for ID is `init := false`, and a POLL after it finds the session it left. -/
theorem idReceivedUninitializes : Obligations.IdReceivedUninitializes := by
  refine ⟨fun a s => exec_eq (.id a) s, fun a s h => exec_id_of_handler_none a h, fun a s hid hpoll hse => ?pollAfter,
    fun s q hrx hs hid => ?workedExample⟩
  case pollAfter =>
    have hafter : ({ sessionOr s a with init := false } : Session) = ⟨a, false, []⟩ := by
      rcases hse with habsent | hpresent
      · rw [sessionOr_of_absent habsent]
      · rw [sessionOr_of_present hpresent]
    rw [exec_id_of_handler_none a hid, hafter, ← addrByte_false]
    exact ⟨_, _, rfl, rfl, exec_poll_setSession false hpoll, rfl⟩
  case workedExample =>
    have hdec : decode [0x53, 0x01, 0x07, 0x00, 0x00, 0x61, 0x44] = .ok (.id 1) := by decide
    rw [iterate_of_decode_of_handler_none hrx hdec hid]
    simp only [Instr.addr, Instr.message, initAfter, sessionOr_of_present hs]
    rfl

/-- Settles O32: the transition for CAP is `init := true`, of a fresh session too; the worked example's second frame is a POLL
of the session that the first one left. -/
theorem capReceivedInitializes : Obligations.CapReceivedInitializes := by
  refine ⟨fun a s => exec_eq (.cap a) s, fun a s h => exec_cap_of_handler_none a h, fun a s hcap hpoll habsent => ?pollAfter,
    ?workedExample⟩
  case pollAfter =>
    rw [exec_cap_of_handler_none a hcap, sessionOr_of_absent habsent]
    exact ⟨_, _, rfl, State.session_setSession_self .., exec_poll_setSession true hpoll, rfl⟩
  case workedExample =>
    have hcap : decode [0x53, 0x01, 0x07, 0x00, 0x00, 0x62, 0x43] = .ok (.cap 1) := by decide
    have hpoll : decode [0x53, 0x01, 0x07, 0x00, 0x00, 0x60, 0x45] = .ok (.poll 1) := by decide
    have hfirst : iterate { State.reset with rx := [0x53, 0x01, 0x07, 0x00, 0x00, 0x62, 0x43] } =
        .next (State.setSession { State.reset with ctrlWritten := true } 1 ⟨1, true, []⟩) := by
      rw [iterate_of_decode_of_handler_none rfl hcap (State.handler_reset 0x62)]
      rfl
    have hsecond := exec_poll_setSession (a := 1) (s := { State.reset with ctrlWritten := true }) true
      (State.handler_reset 0x60)
    exact ⟨_, _, hfirst, State.session_setSession_self .., (iterate_of_decode (rest := []) rfl hpoll).trans hsecond,
      by decide⟩

/-- Settles O33: these commands make no transition, so the session is written back as it was. -/
theorem lstatLedBuzReceived : Obligations.LstatLedBuzReceived := by
  refine ⟨fun a p s => ⟨exec_eq (.lstat a) s, exec_eq (.led a p) s, exec_eq (.buz a) s,
      exec_of_handler_none (i := .lstat a), exec_led_of_handler_none a p, exec_of_handler_none (i := .buz a), ?unchanged⟩,
    fun d hd => regDecode_short .led hd, ?workedExamples⟩
  case unchanged =>
    intro se hs
    rw [sessionOr_of_present hs, State.setSession_eq_self s a se hs]
  case workedExamples =>
    rintro s (⟨hh, hrx⟩ | ⟨hh, hrx⟩ | ⟨hh, hrx⟩)
    · exact iterate_of_decode_of_handler_none (i := .lstat 1) hrx (by decide) hh
    · exact iterate_of_decode_of_handler_none (i := .led 1 ⟨0, 0, 2, 5, 5, 1, 0, 0x1E, 0, 1, 1, 0, 2, 0⟩) hrx (by decide) hh
    · exact iterate_of_decode_of_handler_none (i := .buz 1) hrx (by decide) hh

end Sys2Proof.Machine
end

section
/-! PROOFS. `send` and the frame it writes (43_engine.md R135). -/

namespace Sys2Proof.Machine

/-- Condition V3 of R75, met by any bytes followed by their checksum. -/
theorem byteAt_last_append_cksum (s : List Byte) :
    byteAt (s ++ [cksum s]) ((s ++ [cksum s]).length - 1) =
      cksum ((s ++ [cksum s]).take ((s ++ [cksum s]).length - 1)) := by
  simp [byteAt]

/-- A frame spelled out is valid where its data fits and its CTRL byte has no mode bit set. -/
theorem validFlag_wireFrame (addr cmd : Byte) {ctrl : Byte} {data : List Byte} (hc : ctrl &&& Param.ctrlReject = 0)
    (hd : data.length ≤ Param.maxData) : validFlag (wireFrame addr ctrl cmd data) = true := by
  have hlen := wireFrame_length addr ctrl cmd data
  have hfits : 7 + data.length < 65536 := Nat.lt_of_le_of_lt (Nat.add_le_add_left hd 7) (by decide)
  refine (validFlag_iff _).2 ⟨by omega, rfl, hc, byteAt_last_append_cksum _, ?length⟩
  case length =>
    calc (le16 (BitVec.ofNat 8 (7 + data.length)) (BitVec.ofNat 8 ((7 + data.length) / 256))).toNat
        = 7 + data.length := by rw [le16_ofNat hfits, BitVec.toNat_ofNat, Nat.mod_eq_of_lt hfits]
      _ = (wireFrame addr ctrl cmd data).length := hlen.symm

/-- The invariant keeps the mode bits out of `LAST_CTRL`, so what `send` writes is valid. -/
theorem Invariant.validFlag_messageFrame {s : State} (hs : Invariant s) (se : Session) {m : Message}
    (hm : (payload m).length ≤ Param.maxData) : validFlag (messageFrame se s.lastCtrl m) = true :=
  validFlag_wireFrame (outAddr se m) (codeOf m) hs.ctrl_ok hm

/-- The frame does not depend on the session's queue. -/
theorem messageFrame_queue (a : Addr) (init : Bool) (q : List Message) (c : Byte) (m : Message) :
    messageFrame ⟨a, init, q⟩ c m = messageFrame ⟨a, init, []⟩ c m := rfl

/-- Settles O27: the three outcomes of `send`, and the frame it writes under the invariant. -/
theorem sendWritesOneValidFrame : Obligations.SendWritesOneValidFrame := by
  refine ⟨fun a m s hs => send_absent m hs, fun a m s se hs hm => send_overflow hs hm,
    fun a m s se hs hm => ⟨send_present hs hm, fun hinv => ⟨hinv.validFlag_messageFrame se hm, ?written⟩⟩,
    fun s q hs hc => ?workedExample⟩
  case written => exact hinv.written a (by rw [hs]; rfl)
  case workedExample =>
    have hframe : messageFrame ⟨1, true, []⟩ 0x00 (.lstatr ⟨1, 0⟩) =
        [0x53, 0x81, 0x09, 0x00, 0x00, 0x48, 0x01, 0x00, 0xDA] := by decide
    rw [send_present hs (by decide), hc, messageFrame_queue, hframe]

end Sys2Proof.Machine
end

section
/-! PROOFS. `Dispatch` (43_engine.md R133). -/

namespace Sys2Proof.Machine

/-- Settles O29: the transition leaves `s1`, and the selection by the content of HND is `callHandler` by its definition. -/
theorem dispatchTransitionsThenCallsTheHandler : Obligations.DispatchTransitionsThenCallsTheHandler := by
  refine ⟨fun a m s s1 hs1 => ?dispatch, fun s q init hs hh => ?capExample⟩
  case dispatch =>
    have htransition :
        s1 = s.setSession a { sessionOr s a with init := initAfter m (sessionOr s a).init } := by
      rw [hs1]
      cases m with
      | id => exact setInit_getOrCreate_eq a false s
      | cap => exact setInit_getOrCreate_eq a true s
      | _ => exact getOrCreate_eq a s
    rw [exec_eq, addr_ofMessage, message_ofMessage, ← htransition]
    rfl
  case capExample => rw [exec_cap_of_handler_none 1 hh, sessionOr_of_present hs]

end Sys2Proof.Machine
end

section
/-! PROOFS. The loop body over `read_from_stream` (43_engine.md R130). -/

namespace Sys2Proof.Machine

theorem assemble_of_readFromStream_none {s s1 : State} (h : readFromStream s = (none, s1)) :
    ∃ e, assemble s = (.error e, s1) := by
  obtain ⟨e, s2, ha, hr⟩ | ⟨b, s2, -, hr⟩ := readFromStream_cases s
  · cases hr.symm.trans h
    exact ⟨e, ha⟩
  · cases hr.symm.trans h

theorem assemble_of_readFromStream_some {s s1 : State} {f : Frame} (h : readFromStream s = (some f, s1)) :
    ∃ b, assemble s = (.ok b, s1) ∧ decodeFrame b = f := by
  obtain ⟨e, s2, -, hr⟩ | ⟨b, s2, ha, hr⟩ := readFromStream_cases s
  · cases hr.symm.trans h
  · cases hr.symm.trans h
    exact ⟨b, ha, rfl⟩

/-- The mask of ADDR is the remainder by 128: what is left beside bit 7. -/
theorem deviceAddress_toNat (b : Byte) : (deviceAddress b).toNat = b.toNat % 128 := by
  have hfields := addrByte_toNat (decide (128 ≤ b.toNat)) (deviceAddress b)
  rw [addrByte_fields] at hfields
  have hlt := (deviceAddress b).isLt
  split at hfields <;> omega

/-- The first POLL after reset makes its session and is answered by an ACK with direction bit 0. -/
theorem iterate_reset_poll :
    iterate { State.reset with rx := [0x53, 0x01, 0x07, 0x00, 0x00, 0x60, 0x45] } =
      .next { State.reset.setSession 1 ⟨1, false, []⟩ with
        lastCtrl := 0x00, ctrlWritten := true, tx := [0x53, 0x01, 0x07, 0x00, 0x00, 0x40, 0x65] } := by
  have hdec : decode [0x53, 0x01, 0x07, 0x00, 0x00, 0x60, 0x45] = .ok (.poll 1) := by decide
  have hse : sessionOr (State.reset.latch 0x00) 1 = ⟨1, false, []⟩ := sessionOr_of_absent (State.session_reset 1)
  have hack : messageFrame ⟨1, false, []⟩ 0x00 .ack = [0x53, 0x01, 0x07, 0x00, 0x00, 0x40, 0x65] := by decide
  have hpoll := exec_poll_of_queue_nil (a := 1) (s := State.reset.latch 0x00) (State.handler_reset 0x60) (by rw [hse])
  rw [hse, State.latch_lastCtrl, hack] at hpoll
  exact (iterate_of_decode (rest := []) rfl hdec).trans hpoll

/-- Settles O43: each exit of the loop body is a case of `fetch` over the buffer that was read. -/
theorem iterateFollowsTheLoopBody : Obligations.IterateFollowsTheLoopBody := by
  refine ⟨fun s h => ?idle, fun s s1 hne h => ?noFrame, fun s s1 f hne h hv => ?invalid,
    fun s s1 f hne h hv hm => ?refused, fun s s1 f m hne h hv hm => ?message, deviceAddress_toNat, iterate_reset_poll⟩
  case idle => exact iterate_of_drop (fetch_idle h) nofun
  case noFrame =>
    obtain ⟨e, ha⟩ := assemble_of_readFromStream_none h
    exact iterate_of_drop (fetch_of_assemble_error hne ha) nofun
  case invalid =>
    obtain ⟨b, ha, rfl⟩ := assemble_of_readFromStream_some h
    exact iterate_of_drop (fetch_of_invalid hne ha hv) nofun
  case refused =>
    obtain ⟨b, ha, rfl⟩ := assemble_of_readFromStream_some h
    exact iterate_of_drop (fetch_of_refused hne ha hv hm) nofun
  case message =>
    obtain ⟨b, ha, rfl⟩ := assemble_of_readFromStream_some h
    exact iterate_of_run (fetch_of_message hne ha hv hm)

end Sys2Proof.Machine
end

section
/-! PROOFS. The drops of the loop body, as steps: a framing error and an unknown code (60_exceptions.md R151, R152). -/

namespace Sys2Proof.Machine

variable {s s1 : State} {f : Frame}

theorem readFromStream_nil (h : s.rx = []) : readFromStream s = (none, s) :=
  readFromStream_of_assemble_error (assemble_nil h)

theorem rx_ne_nil_of_readFromStream_some (h : readFromStream s = (some f, s1)) : s.rx ≠ [] := by
  intro hnil
  cases (readFromStream_nil hnil).symm.trans h

/-- Where there is no frame the step is the read; on an empty RX both change nothing. -/
theorem step_of_noFrame (ha : s.agenda = []) (h : readFromStream s = (none, s1)) : step s = .next s1 := by
  obtain ⟨hidle, hnoFrame, -⟩ := iterateFollowsTheLoopBody
  rw [step_iterate ha]
  by_cases hnil : s.rx = []
  · cases (readFromStream_nil hnil).symm.trans h
    exact hidle s hnil
  · exact hnoFrame s s1 hnil h

theorem step_of_invalid (ha : s.agenda = []) (h : readFromStream s = (some f, s1)) (hv : f.isValid = false) :
    step s = .next s1 := by
  obtain ⟨-, -, hinvalid, -⟩ := iterateFollowsTheLoopBody
  rw [step_iterate ha, hinvalid s s1 f (rx_ne_nil_of_readFromStream_some h) h hv]

theorem step_of_refused (ha : s.agenda = []) (h : readFromStream s = (some f, s1)) (hv : f.isValid = true)
    (hm : regDecode f.cmd f.data = none) : step s = .next { s1 with lastCtrl := f.ctrl, ctrlWritten := true } := by
  obtain ⟨-, -, -, hrefused, -⟩ := iterateFollowsTheLoopBody
  rw [step_iterate ha, hrefused s s1 f (rx_ne_nil_of_readFromStream_some h) h hv hm]

theorem decode_of_refused {b : List Byte} (hv : (decodeFrame b).isValid = true)
    (hm : regDecode (decodeFrame b).cmd (decodeFrame b).data = none) :
    decode b = .error (regReason (decodeFrame b).cmd) := by
  simp [decode, hv, hm]

theorem regReason_unregistered {c : Byte} (h : lookup c = none) : regReason c = .unknownCode := by
  simp only [regReason, h]

/-- Settles O45: each of the three is a read of R78 with no frame or with an invalid one. -/
theorem framingErrorIsDropped : Obligations.FramingErrorIsDropped := by
  refine ⟨fun s b r ha hrx hb => ?notSom, fun s a l u r ha hrx hl => ?shortLength,
    fun s a l u r n ha hrx hl hn hv => ?invalid⟩
  case notSom => exact step_of_noFrame ha (readFromStream_notSom hrx hb)
  case shortLength =>
    rw [← le16_toNat] at hl
    exact step_of_noFrame ha (readFromStream_of_assemble_error (assemble_shortLength hrx hl))
  case invalid =>
    rw [← le16_toNat] at hl
    exact step_of_invalid ha (readFromStream_body hrx hl hn) hv

/-- Settles O46: the registry has no entry for the code, so it refuses the frame after the latch. -/
theorem unknownCodeIsDropped : Obligations.UnknownCodeIsDropped := by
  intro s b rest ha hrx hv hcode
  have hlookup : lookup (decodeFrame b).cmd = none := (lookup_eq_none _).2 hcode
  have hm := regDecode_unregistered hlookup (decodeFrame b).data
  constructor
  · rw [decode_of_refused hv hm, regReason_unregistered hlookup]
  · exact step_of_refused ha (readFromStream_valid hrx hv) hv hm

end Sys2Proof.Machine
end

section
/-! PROOFS. The frame codec's round trips (40_frame_codec.md sections 2, 3 and 5). -/

namespace Sys2Proof.Machine

theorem take_wireFrame (addr ctrl cmd : Byte) (data : List Byte) :
    (wireFrame addr ctrl cmd data).take (6 + data.length) =
      [0x53, addr, BitVec.ofNat 8 (7 + data.length), BitVec.ofNat 8 ((7 + data.length) / 256), ctrl, cmd] ++ data :=
  List.take_left' (by rw [List.length_append]; rfl)

/-- Every field of a frame spelled out comes back. -/
theorem decodeFrame_wireFrame (addr cmd : Byte) {ctrl : Byte} {data : List Byte} (hc : ctrl &&& Param.ctrlReject = 0)
    (hd : data.length ≤ Param.maxData) :
    decodeFrame (wireFrame addr ctrl cmd data) =
      { som := 0x53, addr := addr, len := BitVec.ofNat 16 (7 + data.length), ctrl := ctrl, cmd := cmd, data := data,
        checksum := cksum ((wireFrame addr ctrl cmd data).take (6 + data.length)), isValid := true } := by
  have hvalid := validFlag_wireFrame addr cmd hc hd
  have hlen : 7 + data.length < 65536 := Nat.lt_of_le_of_lt (Nat.add_le_add_left hd 7) (by decide)
  rw [take_wireFrame, ← hvalid, ← le16_ofNat hlen]
  exact decodeFrame_fields ..

/-- Settles O7: the bytes of `encode` are the frame spelled out, whose fields come back. -/
theorem decodeOfEncodedFrame : Obligations.DecodeOfEncodedFrame := by
  intro addr ctrl cmd data hc hd
  exact ⟨_, encodeFrame_eq_wireFrame addr ctrl cmd hd, decodeFrame_wireFrame addr cmd hc hd⟩

theorem byteAt_last (b : List Byte) : byteAt b (b.length - 1) = b.getLastD 0 := by
  rw [byteAt, List.getD_eq_getElem?_getD, ← List.getLast?_eq_getElem?, List.getLastD_eq_getLast?]

/-- Settles O5: 7 bytes are a condition of validity, and DATA has the length `len(b) - 7`, which is 0. -/
theorem shortBufferIsInvalid : Obligations.ShortBufferIsInvalid := by
  intro b hb
  have hzero : b.length - Param.overhead = 0 := Nat.sub_eq_zero_of_le (Nat.le_of_lt hb)
  have hinvalid : validFlag b = false := by
    rw [Bool.eq_false_iff, ne_eq, validFlag_iff]
    exact fun h => Nat.not_le.2 hb h.1
  rw [decodeFrame, hzero, hinvalid, byteAt_last]
  rfl

/-- Settles O6: a buffer of at least 7 bytes, taken apart at the fields. -/
theorem frameFieldsAreTheBytesInOrder : Obligations.FrameFieldsAreTheBytesInOrder := by
  intro b hb
  obtain ⟨b0, b1, b2, b3, b4, b5, d, c, rfl⟩ := exists_frame_fields hb
  rw [decodeFrame_fields]
  exact ⟨b2, b3, rfl, le16_toNat b2 b3⟩

/-- Condition V3 of R75 says that the bytes of a valid frame sum to 0 (30_encoding.md R56). -/
theorem byteSum_of_validFlag {b : List Byte} (h : validFlag b = true) : byteSum b % 256 = 0 := by
  obtain ⟨h7, -, -, hsum, -⟩ := (validFlag_iff b).1 h
  have hpos : b ≠ [] := List.ne_nil_of_length_pos (by omega)
  have hsplit : b.take (b.length - 1) ++ [byteAt b (b.length - 1)] = b := by
    rw [byteAt_last, ← List.dropLast_eq_take, List.getLastD_eq_getLast?, List.getLast?_eq_some_getLast hpos]
    exact List.dropLast_append_getLast hpos
  rw [eq_cksum_iff] at hsum
  rw [← hsplit, byteSum_append, byteSum_cons, byteSum_nil]
  exact hsum

/-- Settles O8: two valid buffers sum to 0, and a change of one byte changes the sum by the bytes' difference, which is less than
256. -/
theorem oneByteCorruptionIsDetected : Obligations.OneByteCorruptionIsDetected := by
  intro b i v w hvalid hv hne
  refine Bool.eq_false_iff.2 fun hvalid' => hne ?_
  have hsum := byteSum_of_validFlag hvalid
  have hsum' := byteSum_of_validFlag hvalid'
  have hset := byteSum_set w hv
  have hvlt := v.isLt
  have hwlt := w.isLt
  exact BitVec.eq_of_toNat_eq (by omega)

/-- Settles O9: LEN is the length, so its two bytes are the ones `encode` spells, and the checksum is the one it computes. -/
theorem validFrameHasOneSpelling : Obligations.ValidFrameHasOneSpelling := by
  intro b hvalid
  obtain ⟨h7, hsom, -, hsum, hlen⟩ := (validFlag_iff b).1 hvalid
  obtain ⟨b0, b1, b2, b3, b4, b5, d, c, rfl⟩ := exists_frame_fields h7
  rw [decodeFrame_fields]
  have hb0 : b0 = Param.som := hsom
  have hL : (le16 b2 b3).toNat = Param.overhead + d.length := by
    simp only [byteAt, List.getD_cons_zero, List.getD_cons_succ, List.length_cons, List.length_append,
      List.length_nil] at hlen
    rw [hlen, Param.overhead]
    omega
  have hfits : d.length ≤ Param.maxData := by
    have hlt := (le16 b2 b3).isLt
    simp only [Param.overhead, Param.maxData] at hL ⊢
    omega
  have hhead : frameHead b1 b4 b5 d = b0 :: b1 :: b2 :: b3 :: b4 :: b5 :: d := by
    rw [frameHead, ← hL, BitVec.ofNat_toNat, BitVec.setWidth_eq, bytes_of_le16, hb0]
    rfl
  have hc : c = cksum (frameHead b1 b4 b5 d) := by
    rw [hhead]
    simpa [byteAt] using hsum
  rw [encodeFrame_ok _ _ _ hfits, ← hc, hhead]
  rfl

/-- Settles O3: the two refusals, of `encode` and of `send`. -/
theorem encodeRefusesOversizedData : Obligations.EncodeRefusesOversizedData :=
  ⟨fun addr ctrl cmd _ hd => encodeFrame_overflow addr ctrl cmd hd, fun _ _ _ _ hs hm => send_overflow hs hm⟩

end Sys2Proof.Machine
end

section
/-! PROOFS. The registry's answers and the round trips of the payload codecs (41_messages.md sections 1, 3 and 4). -/

namespace Sys2Proof.Machine

/-- R92 (a) and R90: the two ways in which the registry answers nothing. -/
theorem regDecode_eq_none_iff (c : Byte) (d : List Byte) :
    regDecode c d = none ↔ lookup c = none ∨ ∃ v : Variant, v.row.code = c ∧ d.length < v.row.fixedPart := by
  rcases hc : lookup c with _ | v
  · simp [regDecode_unregistered hc]
  · have hv := (lookup_eq_some c v).1 hc
    rw [regDecode_of_code hv, decPayload]
    constructor
    · intro h
      exact .inr ⟨v, hv, by_contra fun hlong => by simp [hlong] at h⟩
    · rintro (h | ⟨w, hw, hshort⟩)
      · cases h
      · cases hc.symm.trans ((lookup_eq_some c w).2 hw)
        exact if_pos hshort

/-- The rows with a fixed part are LED, PDID, RAW and LSTATR. -/
theorem exists_row_longer_iff (c : Byte) (n : Nat) :
    (∃ v : Variant, v.row.code = c ∧ n < v.row.fixedPart) ↔
      (c = 0x69 ∧ n < 14) ∨ (c = 0x45 ∧ n < 9) ∨ (c = 0x50 ∧ n < 4) ∨ (c = 0x48 ∧ n < 2) := by
  constructor
  · rintro ⟨v, rfl, hn⟩
    cases v with
    | led => exact .inl ⟨rfl, hn⟩
    | pdid => exact .inr (.inl ⟨rfl, hn⟩)
    | raw => exact .inr (.inr (.inl ⟨rfl, hn⟩))
    | lstatr => exact .inr (.inr (.inr ⟨rfl, hn⟩))
    | poll | id | cap | lstat | buz | ack | pdcap => exact absurd hn (Nat.not_lt_zero n)
  · rintro (⟨rfl, hn⟩ | ⟨rfl, hn⟩ | ⟨rfl, hn⟩ | ⟨rfl, hn⟩)
    · exact ⟨.led, rfl, hn⟩
    · exact ⟨.pdid, rfl, hn⟩
    · exact ⟨.raw, rfl, hn⟩
    · exact ⟨.lstatr, rfl, hn⟩

/-- Settles O11: an unregistered code is one outside the code column, and the rows with a fixed part are four. -/
theorem registryDecodesExactly : Obligations.RegistryDecodesExactly := by
  intro c d
  refine ⟨?_, fun m => codeOf_of_regDecode⟩
  rw [regDecode_eq_none_iff, lookup_eq_none, exists_row_longer_iff]

theorem fixedPart_le_payload_length (m : Message) : (variant m).row.fixedPart ≤ (payload m).length := by
  rw [payload_length]
  cases m <;> simp [variant, Variant.row, Param.ledLen]

/-- A number that fits `n` bytes is the value of its big-endian spelling. -/
theorem be_bytesBe_of_lt {n v : Nat} (h : v < 256 ^ n) : be (bytesBe n v) = v := by
  rw [be_bytesBe, Nat.mod_eq_of_lt h]

theorem pdidFields_payload (p : PdidFields) : pdidFields (payload (.pdid p)) = p := by
  have hv : be (bytesBe 3 p.vendor.toNat) = p.vendor.toNat := be_bytesBe_of_lt p.vendor.isLt
  have hs : be (bytesBe 4 p.serial.toNat) = p.serial.toNat := be_bytesBe_of_lt p.serial.isLt
  calc pdidFields (payload (.pdid p))
      = ⟨BitVec.ofNat 24 (be (bytesBe 3 p.vendor.toNat)), p.model, p.version,
          BitVec.ofNat 32 (be (bytesBe 4 p.serial.toNat)), p.firmware⟩ := rfl
    _ = p := by rw [hv, hs, BitVec.ofNat_toNat, BitVec.ofNat_toNat, BitVec.setWidth_eq, BitVec.setWidth_eq]

theorem rawFields_payload (p : RawFields) : rawFields (payload (.raw p)) = p := by
  calc rawFields (payload (.raw p))
      = ⟨p.reader, p.formatCode, le16 (p.bitCount.setWidth 8) ((p.bitCount >>> 8).setWidth 8), p.bits⟩ := rfl
    _ = p := by rw [le16_of_bytes]

/-- The fields read from a Message's own bytes are the Message. -/
theorem readFields_payload (m : Message) : readFields (variant m) (payload m) = m := by
  cases m with
  | pdid p => exact congrArg Message.pdid (pdidFields_payload p)
  | pdcap caps => exact congrArg Message.pdcap (capRecords_capBytes caps)
  | raw p => exact congrArg Message.raw (rawFields_payload p)
  | poll | id | cap | lstat | led p | buz | ack | lstatr p => rfl

/-- 41_messages.md section 4, for the code and the bytes by themselves. -/
theorem regDecode_codeOf_payload (m : Message) : regDecode (codeOf m) (payload m) = some m := by
  rw [codeOf, regDecode_long _ (fixedPart_le_payload_length m), readFields_payload]

/-- Settles O12: the payload has its row's fixed part, and its fields are the Message's. -/
theorem messageRoundTrip : Obligations.MessageRoundTrip :=
  regDecode_codeOf_payload

theorem pdidFields_vendor_toNat (d : List Byte) : (pdidFields d).vendor.toNat = be (d.take 3) := by
  have hlt : be (d.take 3) < 2 ^ 24 :=
    calc be (d.take 3) < 256 ^ (d.take 3).length := be_lt _
      _ ≤ 256 ^ 3 := Nat.pow_le_pow_right (by decide) (List.length_take_le 3 d)
      _ = 2 ^ 24 := by decide
  rw [pdidFields, BitVec.toNat_ofNat, Nat.mod_eq_of_lt hlt]

theorem pdidFields_serial_toNat (d : List Byte) : (pdidFields d).serial.toNat = be ((d.drop 5).take 4) := by
  have hlt : be ((d.drop 5).take 4) < 2 ^ 32 :=
    calc be ((d.drop 5).take 4) < 256 ^ ((d.drop 5).take 4).length := be_lt _
      _ ≤ 256 ^ 4 := Nat.pow_le_pow_right (by decide) (List.length_take_le 4 _)
      _ = 2 ^ 32 := by decide
  rw [pdidFields, BitVec.toNat_ofNat, Nat.mod_eq_of_lt hlt]

/-- PDID's bytes are spelled back, whatever the firmware (decision D10). -/
theorem payload_pdidFields (v0 v1 v2 model version s0 s1 s2 s3 : Byte) (fw : List Byte) :
    payload (.pdid (pdidFields ([v0, v1, v2, model, version, s0, s1, s2, s3] ++ fw))) =
      [v0, v1, v2, model, version, s0, s1, s2, s3] ++ fw := by
  have hv : bytesBe 3 (be [v0, v1, v2]) = [v0, v1, v2] := bytesBe_be [v0, v1, v2]
  have hs : bytesBe 4 (be [s0, s1, s2, s3]) = [s0, s1, s2, s3] := bytesBe_be [s0, s1, s2, s3]
  rw [payload, pdidFields_vendor_toNat, pdidFields_serial_toNat]
  calc bytesBe 3 (be [v0, v1, v2]) ++ [model, version] ++ bytesBe 4 (be [s0, s1, s2, s3]) ++ fw
      = [v0, v1, v2, model, version, s0, s1, s2, s3] ++ fw := by rw [hv, hs]; rfl

theorem payload_rawFields (reader format lo hi : Byte) (bits : List Byte) :
    payload (.raw (rawFields ([reader, format, lo, hi] ++ bits))) = [reader, format, lo, hi] ++ bits := by
  calc payload (.raw (rawFields ([reader, format, lo, hi] ++ bits)))
      = [reader, format] ++ bytesLe16 (le16 lo hi) ++ bits := rfl
    _ = [reader, format, lo, hi] ++ bits := by rw [bytes_of_le16]; rfl

/-- Settles O16: 9 bytes are the fixed part of PDID's row, and the positional values are `be` of the 3 and the 4 bytes. -/
theorem pdidPayloadBigEndian : Obligations.PdidPayloadBigEndian := by
  refine ⟨fun d hd => regDecode_short .pdid hd, fun v0 v1 v2 model version s0 s1 s2 s3 fw =>
    ⟨pdidFields ([v0, v1, v2, model, version, s0, s1, s2, s3] ++ fw),
      regDecode_long .pdid (Nat.le_add_left 9 fw.length), ?vendor, rfl, rfl, ?serial, rfl, payload_pdidFields ..⟩⟩
  case vendor =>
    have hbe : be [v0, v1, v2] = ((0 * 256 + v0.toNat) * 256 + v1.toNat) * 256 + v2.toNat := rfl
    rw [pdidFields_vendor_toNat]
    exact hbe.trans (by omega)
  case serial =>
    have hbe : be [s0, s1, s2, s3] = (((0 * 256 + s0.toNat) * 256 + s1.toNat) * 256 + s2.toNat) * 256 + s3.toNat := rfl
    rw [pdidFields_serial_toNat]
    exact hbe.trans (by omega)

/-- Settles O18: 4 bytes are the fixed part of RAW's row, and the count is `le16` of its two bytes. -/
theorem rawPayloadLittleEndianCount : Obligations.RawPayloadLittleEndianCount :=
  ⟨fun _ hd => regDecode_short .raw hd, fun reader format lo hi bits =>
    ⟨rawFields ([reader, format, lo, hi] ++ bits), regDecode_long .raw (Nat.le_add_left 4 bits.length), rfl, rfl,
      le16_toNat lo hi, rfl, payload_rawFields reader format lo hi bits⟩⟩

/-- What the registry decodes is what the row of the code reads, from data that has the row's fixed part. -/
theorem regDecode_eq_some {c : Byte} {d : List Byte} {m : Message} (h : regDecode c d = some m) :
    ∃ v : Variant, v.row.code = c ∧ v.row.fixedPart ≤ d.length ∧ readFields v d = m := by
  have hvar := codeOf_of_regDecode h
  subst hvar
  have hlong : (variant m).row.fixedPart ≤ d.length := by
    by_contra hshort
    rw [codeOf, regDecode_short _ (Nat.not_le.1 hshort)] at h
    cases h
  rw [codeOf, regDecode_long _ hlong] at h
  exact ⟨variant m, rfl, hlong, Option.some.inj h⟩

theorem take_eq_map_byteAt {d : List Byte} {n : Nat} (h : n ≤ d.length) : d.take n = (List.range n).map (byteAt d) := by
  apply List.ext_getElem
  · simp [h]
  · intro i hi _
    have hid : i < d.length := by rw [List.length_take] at hi; omega
    rw [List.getElem_take, List.getElem_map, List.getElem_range, byteAt, List.getD_eq_getElem d 0 hid]

theorem eq_map_byteAt (d : List Byte) : d = (List.range d.length).map (byteAt d) := by
  rw [← take_eq_map_byteAt (Nat.le_refl _), List.take_length]

/-- LED's fields are all of 14 bytes. -/
theorem payload_ledFields {d : List Byte} (h : d.length = 14) : payload (.led (ledFields d)) = d := by
  have hd := eq_map_byteAt d
  rw [h] at hd
  exact hd.symm

theorem payload_lstatrFields {d : List Byte} (h : d.length = 2) : payload (.lstatr (lstatrFields d)) = d := by
  have hd := eq_map_byteAt d
  rw [h] at hd
  exact hd.symm

theorem payload_capRecords {d : List Byte} (h : d.length % 3 = 0) : payload (.pdcap (capRecords d)) = d := by
  have hlen : 3 * (d.length / 3) = d.length := by omega
  rw [payload, capRecords_flatMap_capBytes, hlen, List.take_length]

theorem payload_pdidFields_of_length {d : List Byte} (h : 9 ≤ d.length) : payload (.pdid (pdidFields d)) = d := by
  rw [← List.take_append_drop 9 d, take_eq_map_byteAt h]
  exact payload_pdidFields ..

theorem payload_rawFields_of_length {d : List Byte} (h : 4 ≤ d.length) : payload (.raw (rawFields d)) = d := by
  rw [← List.take_append_drop 4 d, take_eq_map_byteAt h]
  exact payload_rawFields ..

/-- Settles O13: the row of the code read the Message; each variant's own law spells its bytes back, and the empty payloads are
spelled as nothing. -/
theorem payloadWithoutSurplusIsSpelledBack : Obligations.PayloadWithoutSurplusIsSpelledBack := by
  intro c d m hm hlen
  obtain ⟨v, rfl, hlong, rfl⟩ := regDecode_eq_some hm
  suffices hd : payload (readFields v d) = d by
    rw [regEncode, codeOf_of_regDecode hm, hd]
  cases v with
  | led => exact payload_ledFields hlen
  | lstatr => exact payload_lstatrFields hlen
  | pdcap => exact payload_capRecords hlen
  | pdid => exact payload_pdidFields_of_length hlong
  | raw => exact payload_rawFields_of_length hlong
  | poll | id | cap | lstat | buz | ack => exact (List.eq_nil_of_length_eq_zero hlen).symm

end Sys2Proof.Machine
end

section
/-! PROOFS. The encoder and the decoder of instructions (40_frame_codec.md section 5, 41_messages.md section 4). -/

namespace Sys2Proof.Machine

/-- The frame of a well-formed instruction, spelled out. -/
theorem encode_of_wellFormed (h : Header) {i : Instr} (hi : i.wellFormed = true) :
    encode h i = .ok (wireFrame (addrByte h.dir i.addr) h.ctrl (codeOf i.message) (payload i.message)) :=
  encodeFrame_eq_wireFrame _ _ _ ((fits_iff i.message).1 hi)

/-- A valid frame that the registry accepts is the instruction of the registry's Message. -/
theorem decode_of_valid {b : List Byte} {m : Message} (hv : (decodeFrame b).isValid = true)
    (hm : regDecode (decodeFrame b).cmd (decodeFrame b).data = some m) :
    decode b = .ok (Instr.ofMessage (deviceAddress (decodeFrame b).addr) m) := by
  simp [decode, hv, hm]

/-- Settles O20: the fields of the frame come back, the Message from its code and payload and the address from ADDR. -/
theorem instructionRoundTrip : Obligations.InstructionRoundTrip := by
  intro i h hi hc
  have hframe := decodeFrame_wireFrame (addrByte h.dir i.addr) (codeOf i.message) hc ((fits_iff i.message).1 hi)
  refine ⟨_, encode_of_wellFormed h hi, ?decode, ?ctrl, ?addr⟩
  case decode =>
    rw [decode_of_valid (m := i.message), hframe, deviceAddress_addrByte, ofMessage_addr_message]
    · rw [hframe]
    · rw [hframe]
      exact regDecode_codeOf_payload i.message
  case ctrl => rw [hframe]
  case addr =>
    rw [hframe]
    exact addrByte_toNat h.dir i.addr

/-- Settles O21: seven closed buffers, each decoded. -/
theorem wordsDecodeAsTheSpecSpellsThem : Obligations.WordsDecodeAsTheSpecSpellsThem := by
  refine ⟨?ack, ?pdid, ?raw, ?lstatr, ?pollBit7, ?unknownCode, ?rejectedMode⟩ <;> decide

end Sys2Proof.Machine
end

section
/-! PROOFS. The operations on one session: `get_or_create`, `send` and `enqueue` (42_session.md sections 1 and 4). -/

namespace Sys2Proof.Machine

/-- Settles O24: the entry is written with what `get_or_create` finds or makes. -/
theorem getOrCreateMakesAFreshSession : Obligations.GetOrCreateMakesAFreshSession := by
  refine fun a s => ⟨fun habsent => ⟨?fresh, fun b hb => ?others, ?rest⟩, fun se hpresent => ?present⟩
  case fresh => rw [getOrCreate_eq, State.session_setSession_self, sessionOr_of_absent habsent]
  case others => rw [getOrCreate_eq, State.session_setSession_ne _ _ hb.symm]
  case rest => rw [getOrCreate_eq]; rfl
  case present => rw [getOrCreate_eq, sessionOr_of_present hpresent, State.setSession_eq_self s a se hpresent]

/-- A present session is found by `send`, whatever then becomes of the frame. -/
theorem send_ne_sessionNotFound {a : Addr} {s : State} {se : Session} (m : Message) (h : s.session a = some se) :
    (send a m s).1 ≠ .sessionNotFound a := by
  obtain ⟨habsent, -⟩ | ⟨se', -, -, e⟩ | ⟨se', bs, -, -, -, e⟩ := send_cases a m s
  · cases h.symm.trans habsent
  · rw [e]; exact nofun
  · rw [e]; exact nofun

/-- A `send` among the actions is a `send` and its answer (43_engine.md R134). -/
theorem perform_send (k : Caller) (a : Addr) (m : Message) (s : State) :
    perform k s (.send a m) = { (send a m s).2 with returns := s.returns ++ [⟨k, (send a m s).1⟩] } := by
  obtain ⟨-, e⟩ | ⟨se, -, -, e⟩ | ⟨se, bs, -, -, -, e⟩ := send_cases a m s <;> rw [perform, e] <;> rfl

theorem perform_enqueue (k : Caller) (a : Addr) (m : Message) (s : State) :
    perform k s (.enqueue a m) = { (enqueue a m s).2 with returns := s.returns ++ [⟨k, (enqueue a m s).1⟩] } := by
  rcases hs : s.session a with _ | se
  · rw [perform, enqueue_absent m hs]; rfl
  · rw [perform, enqueue_present m hs]; rfl

theorem perform_send_absent {a : Addr} {s : State} (k : Caller) (m : Message) (h : s.session a = none) :
    perform k s (.send a m) = { s with returns := s.returns ++ [⟨k, .sessionNotFound a⟩] } := by
  rw [perform_send, send_absent m h]

theorem perform_enqueue_absent {a : Addr} {s : State} (k : Caller) (m : Message) (h : s.session a = none) :
    perform k s (.enqueue a m) = { s with returns := s.returns ++ [⟨k, .sessionNotFound a⟩] } := by
  rw [perform_enqueue, enqueue_absent m h]

theorem perform_send_present {a : Addr} {m : Message} {s : State} {se : Session} (k : Caller) (h : s.session a = some se)
    (hm : (payload m).length ≤ Param.maxData) :
    perform k s (.send a m) =
      { s with tx := s.tx ++ messageFrame se s.lastCtrl m, returns := s.returns ++ [⟨k, .ok⟩] } := by
  rw [perform_send, send_present h hm]

theorem perform_send_overflow {a : Addr} {m : Message} {s : State} {se : Session} (k : Caller)
    (h : s.session a = some se) (hm : Param.maxData < (payload m).length) :
    perform k s (.send a m) = { s with returns := s.returns ++ [⟨k, .encodeOverflow⟩] } := by
  rw [perform_send, send_overflow h hm]

theorem perform_enqueue_present {a : Addr} {s : State} {se : Session} (k : Caller) (m : Message)
    (h : s.session a = some se) :
    perform k s (.enqueue a m) =
      { s.setSession a { se with q := se.q ++ [m] } with returns := s.returns ++ [⟨k, .ok⟩] } := by
  rw [perform_enqueue, enqueue_present m h]

/-- A call of the host is performed as a handler's action is, with the answer to the host. -/
theorem step_host_send {s : State} {a : Addr} {m : Message} {es : List Event} (h : s.agenda = .send a m :: es) :
    step s = .next (perform .host { s with agenda := es } (.send a m)) :=
  step_event h

theorem step_host_enqueue {s : State} {a : Addr} {m : Message} {es : List Event} (h : s.agenda = .enqueue a m :: es) :
    step s = .next (perform .host { s with agenda := es } (.enqueue a m)) :=
  step_event h

/-- Settles O25: the refusal of both calls, and its answer to a handler and to the host. -/
theorem absentSessionIsAnExplicitError : Obligations.AbsentSessionIsAnExplicitError := by
  refine ⟨fun a m s h => ⟨send_absent m h, enqueue_absent m h⟩, fun a m s se h => ⟨send_ne_sessionNotFound m h, ?found⟩,
    fun k a m s h => ⟨perform_send_absent k m h, perform_enqueue_absent k m h⟩, fun a m s es h hcall => ?host⟩
  case found => rw [enqueue_present m h]; exact nofun
  case host =>
    rcases hcall with hsend | henqueue
    · rw [step_host_send hsend]
      exact congrArg Host.Outcome.next (perform_send_absent .host m h)
    · rw [step_host_enqueue henqueue]
      exact congrArg Host.Outcome.next (perform_enqueue_absent .host m h)

/-- Settles O28: one session is written, with the longer queue. -/
theorem enqueueAppendsAtTheTail : Obligations.EnqueueAppendsAtTheTail := by
  intro a m s se h
  rw [enqueue_present m h]
  exact ⟨rfl, State.session_setSession_self .., fun b hb => State.session_setSession_ne _ _ hb.symm, rfl⟩

end Sys2Proof.Machine
end

section
/-! PROOFS. What a received message does, by the content of its handler entry (43_engine.md section 2, 42_session.md
sections 2 to 5). -/

namespace Sys2Proof.Machine

/-- The state in which the handler of an instruction is called: after `get_or_create` and the hardwired transition
(43_engine.md R133). -/
def transitioned (i : Instr) (s : State) : State :=
  s.setSession i.addr { sessionOr s i.addr with init := initAfter i.message (sessionOr s i.addr).init }

theorem exec_eq_callHandler (i : Instr) (s : State) :
    exec i s = .next (callHandler i.addr i.message (transitioned i s)) :=
  exec_eq i s

theorem transitioned_session_self (i : Instr) (s : State) :
    (transitioned i s).session i.addr =
      some { sessionOr s i.addr with init := initAfter i.message (sessionOr s i.addr).init } :=
  State.session_setSession_self ..

theorem transitioned_session_ne {i : Instr} {b : Addr} (s : State) (h : b ≠ i.addr) :
    (transitioned i s).session b = s.session b :=
  State.session_setSession_ne _ _ h.symm

theorem exec_grows {i : Instr} {s t : State} (h : exec i s = .next t) : Grows (transitioned i s) t := by
  cases (exec_eq_callHandler i s).symm.trans h
  exact callHandler_grows ..

/-- The session of the message after it, whatever the handler. -/
theorem exec_session_self {i : Instr} {s t : State} (h : exec i s = .next t) :
    ∃ se, t.session i.addr = some se ∧ se.addr = (sessionOr s i.addr).addr ∧
      se.init = initAfter i.message (sessionOr s i.addr).init :=
  (exec_grows h).present _ _ (transitioned_session_self i s)

/-- What an operation of `Grows` leaves of every session. -/
theorem Grows.addr_init {s t : State} (h : Grows s t) (b : Addr) :
    (t.session b).map (fun se => (se.addr, se.init)) = (s.session b).map (fun se => (se.addr, se.init)) := by
  rcases hs : s.session b with _ | se
  · rw [h.absent b hs]
  · obtain ⟨se', ht, haddr, hinit⟩ := h.present b se hs
    rw [ht, Option.map_some, Option.map_some, haddr, hinit]

theorem exec_session_ne {i : Instr} {s t : State} {b : Addr} (h : exec i s = .next t) (hb : b ≠ i.addr) :
    (t.session b).map (fun se => (se.addr, se.init)) = (s.session b).map (fun se => (se.addr, se.init)) := by
  rw [(exec_grows h).addr_init b, transitioned_session_ne s hb]

/-- Only a host function registers handlers (log 4). -/
theorem callHandler_hnd {a : Addr} {m : Message} {s : State} (h : ∀ n, s.handler (codeOf m) ≠ some (.host n)) :
    (callHandler a m s).hnd = s.hnd := by
  rcases hh : s.handler (codeOf m) with _ | _ | acts | n
  · rw [callHandler_none hh]
  · rw [callHandler_pollDefault hh, pollDefault_hnd]
  · simp only [callHandler, hh, runHandler]
    split
    · rfl
    · exact runActions_given_hnd ..
  · exact absurd hh (h n)

/-- Settles O36: the transition writes one session, and the handler only grows what it leaves. -/
theorem receivingFrameForEveryHandler : Obligations.ReceivingFrameForEveryHandler := by
  intro i s
  have hexec := exec_eq_callHandler i s
  have hgrows := exec_grows hexec
  exact ⟨_, hexec, hgrows.rx, hgrows.lastCtrl, hgrows.ctrlWritten, hgrows.agenda, hgrows.tx, hgrows.returns,
    exec_session_self hexec, fun b hb => exec_session_ne hexec hb, fun hhost => callHandler_hnd hhost⟩

/-- Settles O34: a reply makes no transition, and with no handler that is all. -/
theorem replyVariantsReceived : Obligations.ReplyVariantsReceived := fun a pd caps raw ls s =>
  ⟨exec_eq (.ack a) s, exec_eq (.pdid a pd) s, exec_eq (.pdcap a caps) s, exec_eq (.raw a raw) s, exec_eq (.lstatr a ls) s,
    exec_of_handler_none (i := .ack a), exec_of_handler_none (i := .pdid a pd), exec_of_handler_none (i := .pdcap a caps),
    exec_of_handler_none (i := .raw a raw), exec_of_handler_none (i := .lstatr a ls)⟩

/-- Settles O35: the transition is one session's write. -/
theorem noHandlerMeansNoReply : Obligations.NoHandlerMeansNoReply := fun i s h =>
  ⟨transitioned i s, exec_of_handler_none h, transitioned_session_self i s, fun _ hb => transitioned_session_ne s hb, rfl⟩

theorem runHandler_queuesGrow (h : Handler) (a : Addr) (c : Byte) (m : Message) (s : State) :
    QueuesGrow s (runHandler h a c m s) := by
  unfold runHandler
  split
  · exact .of_session fun _ => rfl
  · exact runActions_queuesGrow _ _ s

theorem callHandler_queuesGrow {a : Addr} {m : Message} {s : State} (h : s.handler (codeOf m) ≠ some .pollDefault) :
    QueuesGrow s (callHandler a m s) := by
  unfold callHandler
  split
  · exact .of_session fun _ => rfl
  · exact absurd ‹_› h
  · exact runHandler_queuesGrow _ a _ m s

/-- The transition leaves every queue as it was. -/
theorem transitioned_queuesGrow (i : Instr) (s : State) : QueuesGrow s (transitioned i s) := by
  intro b se hs
  by_cases hb : b = i.addr
  · subst hb
    exact ⟨_, transitioned_session_self i s, by rw [sessionOr_of_present hs]⟩
  · exact ⟨se, (transitioned_session_ne s hb).trans hs, List.prefix_rfl⟩

/-- Settles O37: the transition takes nothing from a queue, and neither do the actions of a handler. -/
theorem onlyPollDefaultTakesFromAQueue : Obligations.OnlyPollDefaultTakesFromAQueue := by
  intro i s h
  have hgrow : QueuesGrow s (callHandler i.addr i.message (transitioned i s)) :=
    (transitioned_queuesGrow i s).trans (callHandler_queuesGrow h)
  exact ⟨_, exec_eq_callHandler i s, hgrow⟩

end Sys2Proof.Machine
end

section
/-! PROOFS. `PollDefault` and the queue (42_session.md sections 3 and 4). -/

namespace Sys2Proof.Machine

theorem transitioned_poll {a : Addr} {s : State} {se : Session} (h : s.session a = some se) :
    transitioned (.poll a) s = s := by
  rw [transitioned]
  exact (congrArg _ (sessionOr_of_present h)).trans (State.setSession_eq_self s a se h)

theorem exec_of_pollDefault {i : Instr} {s : State} (h : s.handler (codeOf i.message) = some .pollDefault) :
    exec i s = .next (pollDefault i.addr (transitioned i s)) := by
  rw [exec_eq_callHandler, callHandler_pollDefault]
  exact h

/-- The head of the queue leaves it before it is sent, and the frame is of the session without it. -/
theorem exec_poll_of_queue_cons {a : Addr} {s : State} {se : Session} {m : Message} {rest : List Message}
    (hh : s.handler 0x60 = some .pollDefault) (hs : s.session a = some se) (hq : se.q = m :: rest) :
    exec (.poll a) s = .next (send a m (s.setSession a { se with q := rest })).2 := by
  rw [exec_of_pollDefault (i := .poll a) hh, transitioned_poll hs]
  exact congrArg _ (pollDefault_cons hs hq)

theorem exec_poll_of_queue_cons_of_fits {a : Addr} {s : State} {se : Session} {m : Message} {rest : List Message}
    (hh : s.handler 0x60 = some .pollDefault) (hs : s.session a = some se) (hq : se.q = m :: rest)
    (hm : (payload m).length ≤ Param.maxData) :
    exec (.poll a) s =
      .next { s.setSession a { se with q := rest } with tx := s.tx ++ messageFrame se s.lastCtrl m } := by
  rw [exec_poll_of_queue_cons hh hs hq, send_present (State.session_setSession_self ..) hm]
  rfl

/-- Settles O30: the ACK of an empty queue, and the two ends of the `send` of a queue's head. -/
theorem pollDrainsOneMessageOrAcks : Obligations.PollDrainsOneMessageOrAcks := by
  refine ⟨fun a s hh hq => exec_poll_of_queue_nil hh hq, fun a s se m rest hh hs hq hm =>
    exec_poll_of_queue_cons_of_fits hh hs hq hm, fun a s se m rest hh hs hq hm => ?oversized⟩
  case oversized => rw [exec_poll_of_queue_cons hh hs hq, send_overflow (State.session_setSession_self ..) hm]

theorem repeatExec_succ {i : Instr} {s t : State} (h : exec i s = .next t) (n : Nat) :
    repeatExec i (n + 1) s = repeatExec i n t := by
  simp only [repeatExec, h]

/-- Settles O38, by induction on the queue: each POLL sends the head and leaves the state with the rest. -/
theorem pollsSendTheQueueInOrder : Obligations.PollsSendTheQueueInOrder := by
  rintro a s ⟨own, init, q⟩ hh hs hfit
  induction q generalizing s with
  | nil => exact ⟨s, rfl, hs, (List.append_nil _).symm⟩
  | cons m rest ih =>
    obtain ⟨hm, hrest⟩ := List.forall_mem_cons.1 hfit
    have hpoll := exec_poll_of_queue_cons_of_fits hh hs rfl hm
    obtain ⟨t, ht, hse, htx⟩ := ih
      { s.setSession a ⟨own, init, rest⟩ with tx := s.tx ++ messageFrame ⟨own, init, m :: rest⟩ s.lastCtrl m }
      hh (State.session_setSession_self ..) hrest
    exact ⟨t, (repeatExec_succ hpoll rest.length).trans ht, hse, htx.trans (List.append_assoc ..)⟩

/-- What `PollDefault` leaves of a session and what it writes depend on that session and `LAST_CTRL` alone. -/
theorem pollDefault_setSession (a : Addr) (se : Session) (c : Byte) :
    ∃ se' bs, ∀ s : State, s.lastCtrl = c →
      pollDefault a (s.setSession a se) = { s.setSession a se' with tx := s.tx ++ bs } := by
  rcases hq : se.q with _ | ⟨m, rest⟩
  · refine ⟨se, messageFrame se c .ack, fun s hc => ?_⟩
    have hse := State.session_setSession_self s a se
    rw [pollDefault_nil hse hq, send_present hse (Nat.zero_le _), ← hc]
    rfl
  · by_cases hm : (payload m).length ≤ Param.maxData
    · refine ⟨{ se with q := rest }, messageFrame se c m, fun s hc => ?_⟩
      rw [pollDefault_cons (State.session_setSession_self ..) hq, State.setSession_setSession,
        send_present (State.session_setSession_self ..) hm, ← hc]
      rfl
    · refine ⟨{ se with q := rest }, [], fun s _ => ?_⟩
      rw [pollDefault_cons (State.session_setSession_self ..) hq, State.setSession_setSession,
        send_overflow (State.session_setSession_self ..) (Nat.not_le.1 hm), List.append_nil]
      rfl

/-- The same of a message whose code has no handler or `PollDefault`. -/
theorem callHandler_setSession (a : Addr) (m : Message) (se : Session) (c : Byte) {h : Option Handler}
    (hh : h = none ∨ h = some .pollDefault) :
    ∃ se' bs, ∀ s : State, s.lastCtrl = c → s.handler (codeOf m) = h →
      callHandler a m (s.setSession a se) = { s.setSession a se' with tx := s.tx ++ bs } := by
  rcases hh with rfl | rfl
  · refine ⟨se, [], fun s _ hnone => ?_⟩
    rw [callHandler_none (s := s.setSession a se) hnone, List.append_nil]
    rfl
  · obtain ⟨se', bs, hpoll⟩ := pollDefault_setSession a se c
    exact ⟨se', bs, fun s hc hdefault => (callHandler_pollDefault (s := s.setSession a se) hdefault).trans (hpoll s hc)⟩

/-- Settles O42: both runs write the same session and append the same bytes, and no more. -/
theorem otherSessionsDoNotInterfere : Obligations.OtherSessionsDoNotInterfere := by
  intro i s1 s2 hs hc hh hentry
  have hse : sessionOr s2 i.addr = sessionOr s1 i.addr := by rw [sessionOr, sessionOr, hs]
  obtain ⟨se', bs, hcall⟩ := callHandler_setSession i.addr i.message
    { sessionOr s1 i.addr with init := initAfter i.message (sessionOr s1 i.addr).init } s1.lastCtrl hentry
  have h1 := (exec_eq i s1).trans (congrArg _ (hcall s1 rfl rfl))
  have h2 := exec_eq i s2
  rw [hse, hcall s2 hc.symm hh.symm] at h2
  have hself (s : State) := State.session_setSession_self s i.addr se'
  have hother (s : State) {b : Addr} (hb : b ≠ i.addr) := State.session_setSession_ne s se' hb.symm
  exact ⟨_, _, bs, h1, h2, rfl, rfl, (hself s1).trans (hself s2).symm, fun b hb => ⟨hother s1 hb, hother s2 hb⟩⟩

end Sys2Proof.Machine
end

section
/-! PROOFS. Handlers that are lists of actions (43_engine.md R134), and the order of transition and handler (42_session.md
section 2). -/

namespace Sys2Proof.Machine

/-- A handler other than `PollDefault` is the run of the actions it yields for the session's view. -/
theorem callHandler_actions {a : Addr} {m : Message} {s : State} {h : Handler} {view : Session}
    (hh : s.handler (codeOf m) = some h) (hne : h ≠ .pollDefault) (hs : s.session a = some view) :
    callHandler a m s = runActions (.handler (codeOf m)) (handlerActions h view m) s := by
  cases h with
  | pollDefault => exact absurd rfl hne
  | given acts => exact callHandler_given hh hs
  | host n => exact callHandler_host hh hs

theorem exec_of_actions {i : Instr} {s : State} {h : Handler} (hh : s.handler (codeOf i.message) = some h)
    (hne : h ≠ .pollDefault) :
    exec i s = .next (runActions (.handler (codeOf i.message))
      (handlerActions h { sessionOr s i.addr with init := initAfter i.message (sessionOr s i.addr).init } i.message)
      (transitioned i s)) := by
  rw [exec_eq_callHandler, callHandler_actions _ hne (transitioned_session_self i s)]
  exact hh

/-- Settles O39: the actions of the two forms of handler, the list order by the recursion of `runActions`, and the answers that
`send` and `enqueue` give without a session and without a frame. -/
theorem actionErrorsDoNotStopTheRest : Obligations.ActionErrorsDoNotStopTheRest := by
  refine ⟨fun i s n hh => exec_of_actions hh nofun, fun i s acts hh => exec_of_actions hh nofun,
    fun own a m => ⟨rfl, rfl, rfl, rfl⟩, fun k a m c h acts s => ⟨rfl, congrArg (runActions k acts) (perform_send k a m s),
      congrArg (runActions k acts) (perform_enqueue k a m s), rfl⟩,
    fun k a m acts s => ⟨fun habsent => ⟨?sendAbsent, ?enqueueAbsent⟩, fun se hs hm => ?overflow⟩⟩
  case sendAbsent => rw [runActions, perform_send_absent k m habsent]
  case enqueueAbsent => rw [runActions, perform_enqueue_absent k m habsent]
  case overflow => rw [runActions, perform_send_overflow k hs hm]

/-- Settles O40: the one action is a `send` to the session that the message has made present. -/
theorem givenHandlerRepliesToLstat : Obligations.GivenHandlerRepliesToLstat := by
  intro a p s hh haddr
  have hse : (transitioned (.lstat a) s).session a = some (sessionOr s a) := transitioned_session_self (.lstat a) s
  have hfits : (payload (.lstatr p)).length ≤ Param.maxData := (by decide : 2 ≤ Param.maxData)
  calc exec (.lstat a) s
      = .next (perform (.handler 0x64) (transitioned (.lstat a) s) (.send (sessionOr s a).addr (.lstatr p))) :=
        exec_of_actions (i := .lstat a) hh nofun
    _ = _ := by
        rw [haddr, perform_send_present _ hse hfits]
        rfl

/-- An ACK that a handler sends to the session of its message has the direction bit of the transition: no action changes the
session's `addr` or `init`, or `LAST_CTRL` (42_session.md R122). -/
theorem exec_of_ack_among_actions {i : Instr} {s : State} {h : Handler} {before after : List Action}
    (hh : s.handler (codeOf i.message) = some h) (haddr : (sessionOr s i.addr).addr = i.addr)
    (hacts : handlerActions h { sessionOr s i.addr with init := initAfter i.message (sessionOr s i.addr).init } i.message =
      before ++ .send i.addr .ack :: after) :
    ∃ u, u = runActions (.handler (codeOf i.message)) before (transitioned i s) ∧
      exec i s = .next (runActions (.handler (codeOf i.message)) after { u with
        tx := u.tx ++ wireFrame (addrByte (initAfter i.message (sessionOr s i.addr).init) i.addr) s.lastCtrl 0x40 []
        returns := u.returns ++ [⟨.handler (codeOf i.message), .ok⟩] }) := by
  have hne : h ≠ .pollDefault := by
    rintro rfl
    cases before <;> cases hacts
  have hgrows := runActions_grows (.handler (codeOf i.message)) before (transitioned i s)
  obtain ⟨se, hse, hown, hinit⟩ := hgrows.present _ _ (transitioned_session_self i s)
  have hctrl : (runActions (.handler (codeOf i.message)) before (transitioned i s)).lastCtrl = s.lastCtrl := hgrows.lastCtrl
  have hframe : messageFrame se s.lastCtrl .ack =
      wireFrame (addrByte (initAfter i.message (sessionOr s i.addr).init) i.addr) s.lastCtrl 0x40 [] := by
    rw [messageFrame, outAddr_ack, hinit, hown.trans haddr]
    rfl
  refine ⟨_, rfl, ?_⟩
  rw [exec_of_actions hh hne, hacts, runActions_append, runActions, perform_send_present _ hse (Nat.zero_le _), hctrl,
    hframe]

/-- `PollDefault` with an empty queue or an ACK at its head writes one ACK. -/
theorem pollDefault_tx_of_ack {a : Addr} {s : State} {se : Session} (hs : s.session a = some se)
    (hq : se.q = [] ∨ ∃ rest, se.q = .ack :: rest) :
    (pollDefault a s).tx = s.tx ++ wireFrame (addrByte se.init se.addr) s.lastCtrl 0x40 [] := by
  rw [← outAddr_ack]
  obtain hnil | ⟨rest, hcons⟩ := hq
  · rw [pollDefault_nil hs hnil, send_present hs (Nat.zero_le _)]
    rfl
  · rw [pollDefault_cons hs hcons, send_present (State.session_setSession_self ..) (Nat.zero_le _)]
    rfl

theorem exec_tx_of_pollDefault_of_ack {i : Instr} {s : State} (hh : s.handler (codeOf i.message) = some .pollDefault)
    (haddr : (sessionOr s i.addr).addr = i.addr)
    (hq : (sessionOr s i.addr).q = [] ∨ ∃ rest, (sessionOr s i.addr).q = .ack :: rest) :
    ∃ t, exec i s = .next t ∧
      t.tx = s.tx ++ wireFrame (addrByte (initAfter i.message (sessionOr s i.addr).init) i.addr) s.lastCtrl 0x40 [] := by
  refine ⟨_, exec_of_pollDefault hh, ?_⟩
  rw [pollDefault_tx_of_ack (transitioned_session_self i s) hq, haddr]
  rfl

/-- Settles O41: `initAfter` is true for CAP and false for ID, and the direction bit of the ACK is that. -/
theorem transitionPrecedesTheHandlersReply : Obligations.TransitionPrecedesTheHandlersReply := by
  refine ⟨fun a s h before after hh haddr hacts => exec_of_ack_among_actions (i := .cap a) hh haddr hacts,
    fun a s h before after hh haddr hacts => ?id,
    fun a s haddr hq => ⟨fun hh => exec_tx_of_pollDefault_of_ack (i := .cap a) hh haddr hq, fun hh => ?idPoll⟩⟩
  case id =>
    rw [← addrByte_false]
    exact exec_of_ack_among_actions (i := .id a) hh haddr hacts
  case idPoll =>
    rw [← addrByte_false]
    exact exec_tx_of_pollDefault_of_ack (i := .id a) hh haddr hq

end Sys2Proof.Machine
end

section
/-! PROOFS. The steps of the model: an iteration, a call of the host, the environment (43_engine.md R130, R137), what they
consume, and the end of a run (70_reset_and_hazards.md sections 4 and 5). -/

namespace Sys2Proof.Machine

/-- Settles O44: the iteration over a frame that decodes, from the state itself or from the one without the agenda's head. -/
theorem stepRunsTheDecodedInstruction : Obligations.StepRunsTheDecodedInstruction := by
  intro s b rest i hrx hdec
  refine ⟨fun hidle => ?free, fun es hes => ?ofAgenda⟩
  case free => exact (step_iterate hidle).trans (iterate_of_decode hrx hdec)
  case ofAgenda => exact (step_event hes).trans (iterate_of_decode (s := { s with agenda := es }) hrx hdec)

/-- Settles O49: each step runs the event at the head of the agenda; a call of the host is performed like an action. -/
theorem idleHostAndEnvironmentSteps : Obligations.IdleHostAndEnvironmentSteps := by
  refine ⟨fun s ha hrx => step_of_noFrame ha (readFromStream_nil hrx), fun s bs es ha => step_event ha,
    fun s n es ha => step_event ha, fun s a m es se ha hs hm => ?send, fun s a m es se ha hs => ?enqueue⟩
  case send =>
    exact (step_host_send ha).trans (congrArg _ (perform_send_present (s := { s with agenda := es }) .host hs hm))
  case enqueue =>
    exact (step_host_enqueue ha).trans (congrArg _ (perform_enqueue_present (s := { s with agenda := es }) .host m hs))

/-- Settles O50: one entry of HND is written. -/
theorem registerHandlerReplacesTheEntry : Obligations.RegisterHandlerReplacesTheEntry := by
  intro s c h es ha
  refine ⟨State.setHandler { s with agenda := es } c h, step_event ha, State.handler_setHandler_self .., fun d hd => ?_, rfl⟩
  rw [State.handler_setHandler, if_neg hd.symm]
  rfl

/-- What an iteration does to RX and the agenda: it completes and consumes from the head. -/
theorem iterate_consumes (s : State) :
    ∃ k t, iterate s = .next t ∧ t.rx = s.rx.drop k ∧ t.agenda = s.agenda ∧ k ≤ 65535 ∧ (s.rx ≠ [] → 1 ≤ k) := by
  obtain ⟨k, hrx, hagenda, hle, hpos⟩ : ∃ k, (fetch s).2.rx = s.rx.drop k ∧ (fetch s).2.agenda = s.agenda ∧ k ≤ 65535 ∧
      (s.rx ≠ [] → 1 ≤ k) := by
    obtain ⟨hnil, h⟩ | ⟨k, h1, hk, h, -⟩ | ⟨k, c, h1, hk, -, h, -⟩ := fetch_cases s
    · exact ⟨0, by rw [h]; rfl, by rw [h], Nat.zero_le _, fun hne => absurd hnil hne⟩
    · exact ⟨k, by rw [h], by rw [h], hk, fun _ => h1⟩
    · exact ⟨k, by rw [h]; rfl, by rw [h]; rfl, hk, fun _ => h1⟩
  by_cases hrun : ∃ i, (fetch s).1 = .run i
  · obtain ⟨i, hi⟩ := hrun
    have hexec := exec_eq_callHandler i (fetch s).2
    obtain ⟨hrx', hagenda', -⟩ := exec_keeps hexec
    exact ⟨k, _, (iterate_of_run (Prod.ext hi rfl)).trans hexec, hrx'.trans hrx, hagenda'.trans hagenda, hle, hpos⟩
  · exact ⟨k, _, iterate_of_drop rfl (not_exists.1 hrun), hrx, hagenda, hle, hpos⟩

/-- Settles O52. The bound is the largest LEN. -/
theorem iterationConsumesBytes : Obligations.IterationConsumesBytes := by
  intro s hne
  obtain ⟨k, t, hstep, hrx, -, hle, hpos⟩ := iterate_consumes s
  exact ⟨k, t, hpos hne, hle, hstep, hrx⟩

/-- Every event has a next state. -/
theorem runEvent_next (e : Event) (s : State) : ∃ t, runEvent e s = .next t := by
  cases e with
  | iterate =>
    obtain ⟨-, t, ht, -⟩ := iterate_consumes s
    exact ⟨t, ht⟩
  | send | enqueue | register | rxAppend | txTake => exact ⟨_, rfl⟩

/-- Settles O51: an iteration completes, and so does every step of the other agents. -/
theorem noStepStopsTheMachine : Obligations.NoStepStopsTheMachine := by
  intro s
  rcases ha : s.agenda with _ | ⟨e, es⟩
  · rw [step_iterate ha]
    exact runEvent_next .iterate s
  · rw [step_event ha]
    exact runEvent_next e _

/-- A state that a step does not change ends every run from it. -/
theorem run_of_step_self {s : State} (h : step s = .next s) (k : Nat) : Host.Core.run Sys2Proof.core k s = .next s := by
  induction k with
  | zero => rfl
  | succ k ih => exact (run_next Sys2Proof.core h).trans ih

/-- Settles O53, by induction on the number of bytes in RX: an iteration consumes at least one of them, and with none left the
state stays. -/
theorem finiteInputReachesQuiescence : Obligations.FiniteInputReachesQuiescence := by
  intro s ha
  induction hlen : s.rx.length using Nat.strong_induction_on generalizing s with
  | _ len ih =>
    subst hlen
    by_cases hrx : s.rx = []
    · have hself : step s = .next s := step_of_noFrame ha (readFromStream_nil hrx)
      exact ⟨0, s, Nat.zero_le _, rfl, ⟨hrx, by simp [ha]⟩, ha, fun k => run_of_step_self hself _⟩
    · obtain ⟨k, t, hiter, htrx, hta, -, hpos⟩ := iterate_consumes s
      have hshort : t.rx.length < s.rx.length := by
        have := hpos hrx
        have := List.length_pos_iff.2 hrx
        rw [htrx, List.length_drop]
        omega
      have hstep : step s = .next t := (step_iterate ha).trans hiter
      obtain ⟨n, u, hn, hrun, hquiet, hua, hstay⟩ := ih _ hshort t (hta.trans ha) rfl
      refine ⟨n + 1, u, by omega, (run_next Sys2Proof.core hstep).trans hrun, hquiet, hua, fun j => ?_⟩
      rw [Nat.add_right_comm]
      exact (run_next Sys2Proof.core hstep).trans (hstay j)

end Sys2Proof.Machine
end

section
/-! PROOFS. The drops of the loop body: malformed payloads, short reads, and their precision (60_exceptions.md sections 1 and
4, 40_frame_codec.md section 4). -/

namespace Sys2Proof.Machine

theorem regReason_registered {c : Byte} {v : Variant} (h : v.row.code = c) : regReason c = .malformedPayload := by
  simp only [regReason, (lookup_eq_some c v).2 h]

/-- Settles O47: the four cases are data below the fixed part of the code's row, which the registry refuses. -/
theorem malformedPayloadIsDropped : Obligations.MalformedPayloadIsDropped := by
  intro s b rest ha hrx hv hshort
  obtain ⟨v, hcode, hlt⟩ := (exists_row_longer_iff _ _).2 hshort
  have hm := (regDecode_eq_none_iff _ _).2 (.inr ⟨v, hcode, hlt⟩)
  constructor
  · rw [decode_of_refused hv hm, regReason_registered hcode]
  · exact step_of_refused ha (readFromStream_valid hrx hv) hv hm

/-- Condition V4 of R75 fails for a buffer that is not as long as its LEN. -/
theorem isValid_eq_false_of_length_ne {a l u : Byte} {r : List Byte}
    (h : (le16 l u).toNat ≠ r.length + 4) : (decodeFrame (Param.som :: a :: l :: u :: r)).isValid = false := by
  refine Bool.eq_false_iff.2 fun hv => h ?_
  obtain ⟨-, -, -, -, hlen⟩ := (validFlag_iff _).1 hv
  exact hlen

/-- Settles O48: a short header is no frame, and a short body is all of RX and not as long as LEN. -/
theorem splitFrameIsLost : Obligations.SplitFrameIsLost := by
  refine ⟨fun s r ha hrx hr => ?header, fun s a l u r ha hrx h6 hr => ?body⟩
  case header => exact step_of_noFrame ha (readFromStream_of_assemble_error (assemble_shortHeader hrx hr))
  case body =>
    obtain ⟨n, hn⟩ : ∃ n, (le16 l u).toNat = n + 4 := ⟨(le16 l u).toNat - 4, by rw [le16_toNat]; omega⟩
    have hle : r.length ≤ n := by rw [← le16_toNat, hn] at hr; omega
    have hread := readFromStream_body hrx hn (by rw [← le16_toNat, hn] at h6; omega)
    rw [List.take_of_length_le hle, List.drop_of_length_le hle] at hread
    exact step_of_invalid ha hread (isValid_eq_false_of_length_ne (by rw [le16_toNat]; omega))

theorem step_of_iterationStart {s s0 : State} (h : iterationStart s = some s0) : step s = iterate s0 := by
  obtain ⟨s1, h1, hstep, -⟩ | ⟨-, -, -, -, hnone, -⟩ := step_cases s
  · cases h1.symm.trans h
    exact hstep
  · cases hnone.symm.trans h

/-- `read_from_stream` consumes from the head of RX and changes nothing else (40_frame_codec.md R79). -/
theorem readFromStream_snd (s : State) : ∃ k, k ≤ 65535 ∧ (readFromStream s).2 = { s with rx := s.rx.drop k } := by
  obtain ⟨k, hk, hle, -⟩ := assemble_cases s
  refine ⟨k, hle, hk ▸ ?_⟩
  obtain ⟨e, s1, ha, hr⟩ | ⟨b, s1, ha, hr⟩ := readFromStream_cases s <;> rw [ha, hr]

/-- An idle iteration and one that finds no frame are the read. -/
theorem iterate_of_noFrame {s s1 : State} (h : readFromStream s = (none, s1)) : iterate s = .next s1 := by
  obtain ⟨hidle, hnoFrame, -⟩ := iterateFollowsTheLoopBody
  by_cases hnil : s.rx = []
  · cases (readFromStream_nil hnil).symm.trans h
    exact hidle s hnil
  · exact hnoFrame s s1 hnil h

/-- A valid Frame that the registry accepts is executed, so where nothing is executed it is refused. -/
theorem regDecode_eq_none_of_executes {s s0 s1 : State} {f : Frame} (h : iterationStart s = some s0)
    (hexec : executes s = none) (hread : readFromStream s0 = (some f, s1)) (hv : f.isValid = true) :
    regDecode f.cmd f.data = none := by
  obtain ⟨b, ha, rfl⟩ := assemble_of_readFromStream_some hread
  refine Option.eq_none_iff_forall_ne_some.2 fun m hm => ?_
  have hfetch := fetch_of_message (rx_ne_nil_of_readFromStream_some hread) ha hv hm
  cases hexec.symm.trans (executes_of_fetch h (congrArg Prod.fst hfetch))

/-- Settles O60: the three exits of the loop body that execute nothing. -/
theorem dropsArePrecise : Obligations.DropsArePrecise := by
  intro s s0 hstart hexec
  obtain ⟨-, -, hinvalid, hrefused, -⟩ := iterateFollowsTheLoopBody
  refine ⟨readFromStream_snd s0, ?_⟩
  rw [step_of_iterationStart hstart]
  rcases hread : readFromStream s0 with ⟨_ | f, s1⟩
  · exact iterate_of_noFrame hread
  · have hne := rx_ne_nil_of_readFromStream_some hread
    rcases hv : f.isValid with _ | _
    · exact .inl ⟨hv, hinvalid s0 s1 f hne hread hv⟩
    · have hm := regDecode_eq_none_of_executes hstart hexec hread hv
      obtain ⟨b, -, rfl⟩ := assemble_of_readFromStream_some hread
      obtain ⟨-, -, hmode, -⟩ := (validFlag_iff b).1 hv
      exact .inr ⟨hv, hmode, hm, hrefused s0 s1 _ hne hread hv hm⟩

end Sys2Proof.Machine
end

section
/-! PROOFS. What every step keeps: the sessions and `LAST_CTRL` (10_state.md sections 3, 4 and 9). -/

namespace Sys2Proof.Machine

/-- What a step that executes nothing leaves of the sessions and of `LAST_CTRL`: no session is made, a present one keeps its
`addr` and `init`, and `LAST_CTRL` is as it was or holds the CTRL byte of a valid frame. -/
structure Keeps (s t : State) : Prop where
  absent : ∀ a, s.session a = none → t.session a = none
  present : ∀ a se, s.session a = some se → ∃ se', t.session a = some se' ∧ se'.addr = se.addr ∧ se'.init = se.init
  ctrl : (t.lastCtrl = s.lastCtrl ∧ t.ctrlWritten = s.ctrlWritten) ∨
    (t.lastCtrl &&& Param.ctrlReject = 0 ∧ t.ctrlWritten = true)

theorem Keeps.of_session {s t : State} (hsess : ∀ a, t.session a = s.session a)
    (hctrl : (t.lastCtrl = s.lastCtrl ∧ t.ctrlWritten = s.ctrlWritten) ∨
      (t.lastCtrl &&& Param.ctrlReject = 0 ∧ t.ctrlWritten = true)) : Keeps s t :=
  ⟨fun a h => (hsess a).trans h, fun a se h => ⟨se, (hsess a).trans h, rfl, rfl⟩, hctrl⟩

theorem Grows.keeps {s t : State} (h : Grows s t) : Keeps s t :=
  ⟨h.absent, h.present, .inl ⟨h.lastCtrl, h.ctrlWritten⟩⟩

/-- The agenda is no part of it. -/
theorem Keeps.of_agenda {s t : State} {es : List Event} (h : Keeps { s with agenda := es } t) : Keeps s t :=
  ⟨h.absent, h.present, h.ctrl⟩

theorem fetch_keeps (s : State) : Keeps s (fetch s).2 := by
  refine .of_session (fetch_session s) ?_
  obtain ⟨-, h⟩ | ⟨k, -, -, h, -⟩ | ⟨k, c, -, -, hc, h, -⟩ := fetch_cases s <;> rw [h]
  · exact .inl ⟨rfl, rfl⟩
  · exact .inl ⟨rfl, rfl⟩
  · exact .inr ⟨hc, rfl⟩

/-- An instruction is found only with a latch (43_engine.md R132). -/
theorem fetch_run_ctrlWritten {s : State} {i : Instr} (h : (fetch s).1 = .run i) : (fetch s).2.ctrlWritten = true := by
  obtain ⟨-, e⟩ | ⟨k, -, -, -, ⟨r, e⟩ | ⟨r, e⟩⟩ | ⟨k, c, -, -, -, e, -⟩ := fetch_cases s
  · rw [e] at h; cases h
  · rw [e] at h; cases h
  · rw [e] at h; cases h
  · rw [e]; rfl

/-- A step of the host or of the environment leaves the sessions' `addr` and `init`, and `LAST_CTRL`, alone. -/
theorem runEvent_keeps {e : Event} {s t : State} (he : e ≠ .iterate) (h : runEvent e s = .next t) : Keeps s t := by
  cases e with
  | iterate => exact absurd rfl he
  | send a m => cases h; exact (perform_grows .host s (.send a m)).keeps
  | enqueue a m => cases h; exact (perform_grows .host s (.enqueue a m)).keeps
  | register c hd => cases h; exact (perform_grows .host s (.register c hd)).keeps
  | rxAppend bs => cases h; exact .of_session (fun _ => rfl) (.inl ⟨rfl, rfl⟩)
  | txTake n => cases h; exact .of_session (fun _ => rfl) (.inl ⟨rfl, rfl⟩)

/-- Every step keeps the sessions and `LAST_CTRL` in this sense, or executes an instruction after a latch that did. -/
theorem step_next_cases {s t : State} (h : step s = .next t) :
    Keeps s t ∨ ∃ i s1, executes s = some i ∧ Keeps s s1 ∧ s1.ctrlWritten = true ∧ exec i s1 = .next t := by
  obtain ⟨s0, hstart, hstep, hs0⟩ | ⟨e, es, -, he, -, hstep⟩ := step_cases s
  · have hkeeps : Keeps s (fetch s0).2 := by subst hs0; exact (fetch_keeps _).of_agenda
    obtain ⟨-, rfl⟩ | ⟨i, hrun, hexec⟩ := iterate_next_cases (hstep.symm.trans h)
    · exact .inl hkeeps
    · exact .inr ⟨i, _, executes_of_fetch hstart hrun, hkeeps, fetch_run_ctrlWritten hrun, hexec⟩
  · exact .inl (runEvent_keeps he (hstep.symm.trans h)).of_agenda

theorem Keeps.invariant {s t : State} (hk : Keeps s t) (hs : Invariant s) : Invariant t := by
  have hback (a : Addr) {se' : Session} (ht : t.session a = some se') :
      ∃ se, s.session a = some se ∧ se'.addr = se.addr := by
    rcases ha : s.session a with _ | se
    · cases (hk.absent a ha).symm.trans ht
    · obtain ⟨se'', ht', haddr, -⟩ := hk.present a se ha
      cases ht'.symm.trans ht
      exact ⟨se, rfl, haddr⟩
  refine ⟨fun a se' ht => ?addr, ?ctrl, fun a ht => ?written⟩
  case addr =>
    obtain ⟨se, ha, haddr⟩ := hback a ht
    exact haddr.trans (hs.addr_eq a se ha)
  case ctrl =>
    obtain ⟨hc, -⟩ | ⟨hc, -⟩ := hk.ctrl
    · rw [hc]; exact hs.ctrl_ok
    · exact hc
  case written =>
    obtain ⟨-, hw⟩ | ⟨-, hw⟩ := hk.ctrl
    · obtain ⟨se', ht'⟩ := Option.isSome_iff_exists.1 ht
      obtain ⟨se, ha, -⟩ := hback a ht'
      exact hw.trans (hs.written a (by rw [ha]; rfl))
    · exact hw

theorem sessionOr_addr {s : State} (hs : Invariant s) (a : Addr) : (sessionOr s a).addr = a := by
  rcases ha : s.session a with _ | se
  · rw [sessionOr_of_absent ha]
  · rw [sessionOr_of_present ha]
    exact hs.addr_eq a se ha

/-- `get_or_create` and the transition keep the invariant once `LAST_CTRL` has been written. -/
theorem transitioned_invariant {i : Instr} {s : State} (hs : Invariant s) (hw : s.ctrlWritten = true) :
    Invariant (transitioned i s) := by
  refine ⟨fun b se hb => ?_, hs.ctrl_ok, fun _ _ => hw⟩
  by_cases h : b = i.addr
  · subst h
    cases (transitioned_session_self i s).symm.trans hb
    exact sessionOr_addr hs i.addr
  · exact hs.addr_eq b se ((transitioned_session_ne s h).symm.trans hb)

/-- Settles O54: a step that executes nothing keeps it, and so do the latch, the transition and the handler of one that does. -/
theorem stepKeepsTheInvariant : Obligations.StepKeepsTheInvariant := by
  intro s t hs hstep
  obtain hkeeps | ⟨i, s1, -, hkeeps, hw, hexec⟩ := step_next_cases hstep
  · exact hkeeps.invariant hs
  · exact (exec_grows hexec).keeps.invariant (transitioned_invariant (hkeeps.invariant hs) hw)

/-- Settles O55: no session is present, and the byte of log 1 has no mode bit. -/
theorem resetMeetsTheInvariant : Obligations.ResetMeetsTheInvariant := by
  refine ⟨fun a se h => ?_, by decide, fun a h => ?_⟩
  · cases (State.session_reset a).symm.trans h
  · rw [State.session_reset] at h
    cases h

/-- Settles O56: the two tables' laws at reset. -/
theorem resetStateIsAsListed : Obligations.ResetStateIsAsListed :=
  ⟨State.session_reset, rfl, State.handler_reset 0x60, fun c hc => (State.handler_reset c).trans (if_neg hc), rfl, rfl⟩

/-- The transition changes `init` only for ID and CAP, each to its own value (42_session.md R112). -/
theorem initAfter_ne {i : Instr} {b : Bool} (h : initAfter i.message b ≠ b) :
    (i = .id i.addr ∧ initAfter i.message b = false) ∨ (i = .cap i.addr ∧ initAfter i.message b = true) := by
  cases i with
  | id a => exact .inl ⟨rfl, rfl⟩
  | cap a => exact .inr ⟨rfl, rfl⟩
  | poll | lstat | led | buz | ack | pdid | pdcap | raw | lstatr => exact absurd rfl h

/-- Executing a message leaves the `addr` and `init` of every other present session, and gives its own the transition. -/
theorem exec_present {i : Instr} {s t : State} {a : Addr} {se : Session} (h : exec i s = .next t)
    (ha : s.session a = some se) :
    ∃ se', t.session a = some se' ∧ se'.addr = se.addr ∧
      se'.init = if a = i.addr then initAfter i.message se.init else se.init := by
  by_cases hai : a = i.addr
  · subst hai
    rw [if_pos rfl, ← sessionOr_of_present ha]
    exact exec_session_self h
  · rw [if_neg hai]
    exact (exec_grows h).present a se ((transitioned_session_ne s hai).trans ha)

/-- Settles O57: only an executed message for the address can change `init`, by its transition. -/
theorem initIsDrivenByIdAndCapAlone : Obligations.InitIsDrivenByIdAndCapAlone := by
  intro s t a se se' hstep hs ht hne
  obtain hkeeps | ⟨i, s1, hexecutes, hkeeps, -, hexec⟩ := step_next_cases hstep
  · obtain ⟨se'', ht', -, hinit⟩ := hkeeps.present a se hs
    cases ht'.symm.trans ht
    exact absurd hinit hne
  · obtain ⟨se1, hs1, -, hinit1⟩ := hkeeps.present a se hs
    obtain ⟨se'', ht', -, hinit⟩ := exec_present hexec hs1
    cases ht'.symm.trans ht
    by_cases hai : a = i.addr
    · subst hai
      rw [if_pos rfl, hinit1] at hinit
      rw [hinit] at hne ⊢
      obtain ⟨hi, hval⟩ | ⟨hi, hval⟩ := initAfter_ne hne
      · exact .inl ⟨hexecutes.trans (congrArg some hi), hval⟩
      · exact .inr ⟨hexecutes.trans (congrArg some hi), hval⟩
    · rw [if_neg hai, hinit1] at hinit
      exact absurd hinit hne

/-- Settles O58: only an executed message makes a session, that of its address. -/
theorem sessionsPersistAndComeFromFrames : Obligations.SessionsPersistAndComeFromFrames := by
  intro s t a hstep
  obtain hkeeps | ⟨i, s1, hexecutes, hkeeps, -, hexec⟩ := step_next_cases hstep
  · refine ⟨fun se hs => ?_, fun hs ht => absurd (hkeeps.absent a hs) ht⟩
    obtain ⟨se', ht, haddr, -⟩ := hkeeps.present a se hs
    exact ⟨se', ht, haddr⟩
  · refine ⟨fun se hs => ?_, fun hs ht => ⟨i, hexecutes, by_contra fun hai => ht ?_⟩⟩
    · obtain ⟨se1, hs1, haddr1, -⟩ := hkeeps.present a se hs
      obtain ⟨se', ht, haddr, -⟩ := exec_present hexec hs1
      exact ⟨se', ht, haddr.trans haddr1⟩
    · have hs1 : (transitioned i s1).session a = none :=
        (transitioned_session_ne s1 (Ne.symm hai)).trans (hkeeps.absent a hs)
      exact (exec_grows hexec).absent a hs1

end Sys2Proof.Machine
end

section
/-! PROOFS. TX grows by whole valid frames (20_memory.md section 7, 43_engine.md section 3). -/

namespace Sys2Proof.Machine

theorem WholeFrames.nil (c : Byte) : WholeFrames c [] :=
  ⟨[], rfl, fun _ h => absurd h List.not_mem_nil⟩

theorem WholeFrames.single {c : Byte} {f : List Byte} (hv : validFlag f = true) (hc : byteAt f 4 = c) : WholeFrames c f :=
  ⟨[f], (List.flatten_singleton).symm, fun _ h => List.mem_singleton.1 h ▸ ⟨hv, hc⟩⟩

theorem WholeFrames.append {c : Byte} {xs ys : List Byte} (hx : WholeFrames c xs) (hy : WholeFrames c ys) :
    WholeFrames c (xs ++ ys) := by
  obtain ⟨fs, rfl, hfs⟩ := hx
  obtain ⟨gs, rfl, hgs⟩ := hy
  exact ⟨fs ++ gs, List.flatten_append.symm, List.forall_mem_append.2 ⟨hfs, hgs⟩⟩

/-- What an operation of the engine's worker writes while `LAST_CTRL` has no mode bit set. -/
def WritesFrames (s t : State) : Prop :=
  t.lastCtrl = s.lastCtrl ∧
    (s.lastCtrl &&& Param.ctrlReject = 0 → ∃ bs, t.tx = s.tx ++ bs ∧ WholeFrames s.lastCtrl bs)

theorem WritesFrames.of_tx {s t : State} (hc : t.lastCtrl = s.lastCtrl) (htx : t.tx = s.tx) : WritesFrames s t :=
  ⟨hc, fun _ => ⟨[], htx.trans (List.append_nil _).symm, .nil _⟩⟩

theorem WritesFrames.trans {s t u : State} (h : WritesFrames s t) (k : WritesFrames t u) : WritesFrames s u := by
  obtain ⟨hc, htx⟩ := h
  obtain ⟨kc, ktx⟩ := k
  refine ⟨kc.trans hc, fun hok => ?_⟩
  obtain ⟨bs, hbs, hframes⟩ := htx hok
  obtain ⟨cs, hcs, kframes⟩ := ktx (hc ▸ hok)
  exact ⟨bs ++ cs, by rw [hcs, hbs, List.append_assoc], hframes.append (hc ▸ kframes)⟩

theorem WritesFrames.exists_wholeFrames {s t : State} (h : WritesFrames s t) (hok : s.lastCtrl &&& Param.ctrlReject = 0) :
    ∃ bs, t.tx = s.tx ++ bs ∧ WholeFrames t.lastCtrl bs := by
  obtain ⟨hc, hframes⟩ := h
  rw [hc]
  exact hframes hok

theorem send_writesFrames (a : Addr) (m : Message) (s : State) : WritesFrames s (send a m s).2 := by
  rcases hs : s.session a with _ | se
  · rw [send_absent m hs]; exact .of_tx rfl rfl
  · by_cases hm : (payload m).length ≤ Param.maxData
    · rw [send_present hs hm]
      exact ⟨rfl, fun hok => ⟨_, rfl, .single (validFlag_wireFrame _ _ hok hm) rfl⟩⟩
    · rw [send_overflow hs (Nat.not_le.1 hm)]; exact .of_tx rfl rfl

theorem perform_writesFrames (k : Caller) (s : State) (act : Action) : WritesFrames s (perform k s act) := by
  cases act with
  | send a m => exact (send_writesFrames a m s).trans (.of_tx rfl rfl)
  | enqueue a m => exact .of_tx (perform_grows k s (.enqueue a m)).lastCtrl (enqueue_tx a m s)
  | register c h => exact .of_tx rfl rfl

theorem runActions_writesFrames (k : Caller) (acts : List Action) (s : State) : WritesFrames s (runActions k acts s) := by
  induction acts generalizing s with
  | nil => exact .of_tx rfl rfl
  | cons act acts ih => exact (perform_writesFrames k s act).trans (ih _)

theorem pollDefault_writesFrames (a : Addr) (s : State) : WritesFrames s (pollDefault a s) := by
  unfold pollDefault
  split
  · exact .of_tx rfl rfl
  · split
    · exact WritesFrames.trans (.of_tx rfl rfl) (send_writesFrames ..)
    · exact send_writesFrames ..

theorem callHandler_writesFrames (a : Addr) (m : Message) (s : State) : WritesFrames s (callHandler a m s) := by
  unfold callHandler runHandler
  split
  · exact .of_tx rfl rfl
  · exact pollDefault_writesFrames a s
  · split
    · exact .of_tx rfl rfl
    · exact runActions_writesFrames ..

theorem exec_writesFrames {i : Instr} {s t : State} (h : exec i s = .next t) : WritesFrames s t := by
  cases (exec_eq_callHandler i s).symm.trans h
  exact WritesFrames.trans (.of_tx rfl rfl) (callHandler_writesFrames i.addr i.message (transitioned i s))

theorem fetch_tx (s : State) : (fetch s).2.tx = s.tx := by
  obtain ⟨-, h⟩ | ⟨k, -, -, h, -⟩ | ⟨k, c, -, -, -, h, -⟩ := fetch_cases s <;> rw [h]
  rfl

theorem runEvent_writesFrames {e : Event} {s t : State} (he : e ≠ .iterate) (htake : ∀ n, e ≠ .txTake n)
    (h : runEvent e s = .next t) : WritesFrames s t := by
  cases e with
  | iterate => exact absurd rfl he
  | send a m => cases h; exact perform_writesFrames .host s (.send a m)
  | enqueue a m => cases h; exact perform_writesFrames .host s (.enqueue a m)
  | register c hd => cases h; exact perform_writesFrames .host s (.register c hd)
  | rxAppend bs => cases h; exact .of_tx rfl rfl
  | txTake n => exact absurd rfl (htake n)

/-- An iteration writes frames with the byte that its fetch left in `LAST_CTRL`. -/
theorem iterate_writesFrames {s t : State} (h : iterate s = .next t) : WritesFrames (fetch s).2 t := by
  obtain ⟨-, rfl⟩ | ⟨i, -, hexec⟩ := iterate_next_cases h
  · exact .of_tx rfl rfl
  · exact exec_writesFrames hexec

theorem Keeps.ctrl_ok {s t : State} (hk : Keeps s t) (h : s.lastCtrl &&& Param.ctrlReject = 0) :
    t.lastCtrl &&& Param.ctrlReject = 0 := by
  obtain ⟨hc, -⟩ | ⟨hc, -⟩ := hk.ctrl
  · rw [hc]; exact h
  · exact hc

/-- Settles O59: an iteration latches at most a byte without mode bits and then writes frames with it; the other steps but a
removal write frames with the byte that is there. -/
theorem txGrowsByWholeValidFrames : Obligations.TxGrowsByWholeValidFrames := by
  intro s t hok hstep htake
  obtain ⟨s0, -, hstep', rfl⟩ | ⟨e, es, ha, he, -, hstep'⟩ := step_cases s
  · have hwrites := iterate_writesFrames (hstep'.symm.trans hstep)
    obtain ⟨bs, htx, hframes⟩ := hwrites.exists_wholeFrames ((fetch_keeps _).ctrl_ok hok)
    exact ⟨bs, htx.trans (congrArg (· ++ bs) (fetch_tx _)), hframes⟩
  · have hnoTake (n : Nat) (hn : e = .txTake n) : False := htake n es (ha.trans (congrArg (· :: es) hn))
    exact (runEvent_writesFrames he hnoTake (hstep'.symm.trans hstep)).exists_wholeFrames hok

end Sys2Proof.Machine
end
